-- ==== Sys2Proof/Word.lean ====
section
/-!
DEFINITION. The value types of the lmc-core (spec/00_scope.md R9): `Addr`, `Word`, `PcVal`, and the
answers of the I/O channel (spec/45_io.md R160). Values are mathematical integers with their range
(R8); the types exclude every other value, so no operation can construct one (R34). Log 1.
-/

namespace Sys2Proof

/-- `Addr` of R9: the addresses 0..99. -/
abbrev Addr := Fin 100

/-- `PcVal` of R9 and R21: the integers 0..100. -/
abbrev PcVal := Fin 101

/-- `Word` of R9: the integers from -999 to 999. -/
abbrev Word := { v : Int // -999 ≤ v ∧ v ≤ 999 }

/-- The word 0. -/
abbrev Word.zero : Word := ⟨0, by decide⟩

/-- The word of an integer, where it is one. -/
def Word.ofInt? (i : Int) : Option Word :=
  if h : -999 ≤ i ∧ i ≤ 999 then some ⟨i, h⟩ else none

/-- The word written with the opcode digit `o` and the operand digits `a`: `100 * o + a` (R62). -/
def Word.ofDigits (o : Fin 10) (a : Addr) : Word :=
  ⟨100 * (o.val : Int) + (a.val : Int), by omega⟩

/-- One answer of the I/O channel (R160). -/
inductive Answer where
  /-- An integer in the word range. -/
  | word (v : Word)
  /-- The line could not be read as an integer; the core asks again. -/
  | malformed
  deriving DecidableEq, Repr, Inhabited

end Sys2Proof
end

