-- ==== Sys2Proof/Syntax.lean ====
section
/-!
DEFINITION. The instructions of the lmc-core: one constructor per row of spec/opcode_table.json
(spec/30_encoding.md R64). The three illegal rows of the table are constructors too, because R68 lists
them among the results of decode (log 9).
-/

namespace Sys2Proof

/-- One constructor per row of the opcode table. Operands keep every digit the word has, those that the
instruction ignores too, so that a word can be written back from its instruction (log 9). -/
inductive Instr where
  /-- HLT, `0aa`; the operand digits are ignored (R100). -/
  | hlt (a : Addr)
  /-- ADD, `1aa` (R111). -/
  | add (a : Addr)
  /-- SUB, `2aa` (R112). -/
  | sub (a : Addr)
  /-- STA, `3aa` (R130). -/
  | sta (a : Addr)
  /-- LDA, `5aa` (R131). -/
  | lda (a : Addr)
  /-- BRA, `6aa` (R140). -/
  | bra (a : Addr)
  /-- BRZ, `7aa` (R141). -/
  | brz (a : Addr)
  /-- BRP, `8aa` (R142). -/
  | brp (a : Addr)
  /-- INP, `901` (R161). -/
  | inp
  /-- OUT, `902` (R163). -/
  | out
  /-- OTC, `922` (R165). -/
  | otc
  /-- The BAD_INSTR row `4aa` (R66). -/
  | badOpcode4 (a : Addr)
  /-- The BAD_INSTR row `9aa`, every operand but 1, 2 and 22 (R65). -/
  | badOpcode9 (a : Addr)
  /-- The NEG_INSTR row: a negative word (R61). -/
  | negInstr (w : Word)
  deriving DecidableEq, Repr

end Sys2Proof
end

