-- ==== Sys2Proof/WellFormed.lean ====
section
/-!
DEFINITION. Which terms of `Instr` stand for a word. The operand range 0..99 is in the type; what is left
to check is that the row `9aa` of BAD_INSTR leaves out the three function selectors (spec/30_encoding.md
R65) and that the NEG_INSTR row holds a negative word (R61).
-/

namespace Sys2Proof

/-- The operand of opcode 9 selects one of INP, OUT and OTC (R63, R65). -/
def isSelector (a : Addr) : Bool := a.val == 1 || a.val == 2 || a.val == 22

/-- The instruction stands for a word of its row (R64). -/
def Instr.wellFormed : Instr → Bool
  | .hlt _ => true
  | .add _ => true
  | .sub _ => true
  | .sta _ => true
  | .lda _ => true
  | .bra _ => true
  | .brz _ => true
  | .brp _ => true
  | .inp => true
  | .out => true
  | .otc => true
  | .badOpcode4 _ => true
  | .badOpcode9 a => !isSelector a
  | .negInstr w => decide (w.val < 0)

end Sys2Proof
end

