-- ==== Sys2Proof/Decode.lean ====
section
/-!
DEFINITION. Decoding a word (spec/30_encoding.md R61 to R68) and encoding an instruction, and the reading
of a numbered bit string that the host's interface asks for.
-/

namespace Sys2Proof

/-- `OPC` of R62, the hundreds digit. -/
def opcodeDigit (w : Word) : Nat := w.val.toNat / 100

/-- `OPD` of R62, the two low digits. -/
def operandOf (w : Word) : Addr := ⟨w.val.toNat % 100, by omega⟩

/-- Opcode 9 is decoded on its full operand (R65). -/
def decodeSelector (a : Addr) : Instr :=
  if a.val = 1 then .inp
  else if a.val = 2 then .out
  else if a.val = 22 then .otc
  else .badOpcode9 a

/-- The opcode map (R64). The last arm is digit 9, the only one left (R62: 0..9). -/
def decodeDigits (o : Nat) (a : Addr) : Instr :=
  match o with
  | 0 => .hlt a
  | 1 => .add a
  | 2 => .sub a
  | 3 => .sta a
  | 4 => .badOpcode4 a
  | 5 => .lda a
  | 6 => .bra a
  | 7 => .brz a
  | 8 => .brp a
  | _ => decodeSelector a

/-- `decode` of R68: total, a function of the word alone; the words that are no instruction come out as
`badOpcode4`, `badOpcode9` and `negInstr`. -/
def decode (w : Word) : Instr :=
  if w.val < 0 then .negInstr w else decodeDigits (opcodeDigit w) (operandOf w)

/-- The word of an instruction (R64). -/
def encode : Instr → Word
  | .hlt a => Word.ofDigits 0 a
  | .add a => Word.ofDigits 1 a
  | .sub a => Word.ofDigits 2 a
  | .sta a => Word.ofDigits 3 a
  | .badOpcode4 a => Word.ofDigits 4 a
  | .lda a => Word.ofDigits 5 a
  | .bra a => Word.ofDigits 6 a
  | .brz a => Word.ofDigits 7 a
  | .brp a => Word.ofDigits 8 a
  | .inp => Word.ofDigits 9 1
  | .out => Word.ofDigits 9 2
  | .otc => Word.ofDigits 9 22
  | .badOpcode9 a => Word.ofDigits 9 a
  | .negInstr w => w

/-- The inclusive word range of each row: `word_min` and `word_max` of spec/opcode_table.json. -/
def Instr.wordRange : Instr → Int × Int
  | .hlt _ => (0, 99)
  | .add _ => (100, 199)
  | .sub _ => (200, 299)
  | .sta _ => (300, 399)
  | .lda _ => (500, 599)
  | .bra _ => (600, 699)
  | .brz _ => (700, 799)
  | .brp _ => (800, 899)
  | .inp => (901, 901)
  | .out => (902, 902)
  | .otc => (922, 922)
  | .badOpcode4 _ => (400, 499)
  | .badOpcode9 _ => (900, 999)
  | .negInstr _ => (-999, -1)

/-- The word that a string of `nbits` numbered bits stands for. The spec gives words no bits (R8): the model
reads the number in two's complement over `nbits` bits, and over 16 where `nbits` is less, and it stands
for no word outside [-999, 999]. DESIGN CHOICE, log 7. -/
def wordOfBits (nbits w : Nat) : Option Word :=
  let size := 2 ^ max nbits 16
  let n := w % size
  Word.ofInt? (if 2 * n < size then (n : Int) else (n : Int) - (size : Int))

/-- The instruction the decoder reads from the bits `w`. -/
def decodeTableWord (nbits w : Nat) : Option Instr := (wordOfBits nbits w).map decode

end Sys2Proof
end

