-- ==== Sys2Proof/Config.lean ====
section
/-!
DEFINITION. What the implementation fixes (spec/00_scope.md R7). `MEM_WORDS`, the digit counts and the
word bounds of R7 are fixed by the spec and stand in the types of Word.lean. The two parameters of R7
that a run or a machine supplies, `CHANNEL` and `OTC_MAP`, are plain data in State (log 3, log 6).
-/

namespace Sys2Proof

/-- The character OUT appends after the number: one space (R7, R164, decision D9; log 10). -/
def Config.separator : Char := ' '

/-- `channelConvert` of R160 and decision D11: how the channel turns one line of text into an answer. It
stands outside the block and the spec leaves it open, so it has no body (log 14). -/
opaque Config.channelConvert : String → Answer

end Sys2Proof
end

