-- ==== Sys2Proof/Machine/State.lean ====
section
/-!
DEFINITION. The state of the lmc-core (spec/10_state.md R20), the halt causes (spec/60_exceptions.md R180),
the reasons a step of the model stops, and the state after reset.
-/

namespace Sys2Proof.Machine

/-- `status.PHASE` (R29, R80). -/
inductive Phase where
  /-- The engine can take a cycle step. -/
  | running
  /-- An INP waits for a valid answer. -/
  | waitInput
  /-- Terminal. -/
  | halted
  deriving DecidableEq, Repr

/-- `status.HALT_CAUSE` (R29, R180). -/
inductive HaltCause where
  /-- `HALT_CMD`, raised by HLT (R181). -/
  | haltCmd
  /-- `NEG_INSTR`, raised by a negative word (R182). -/
  | negInstr
  /-- `BAD_INSTR`, raised by a word with no instruction (R183). -/
  | badInstr
  /-- `NO_MORE`, raised by the end-of-memory check (R184). -/
  | noMore
  deriving DecidableEq, Repr

/-- The run status register, three fields (R29). -/
structure RunStatus where
  phase : Phase
  haltAddr : Option PcVal
  haltCause : Option HaltCause
  deriving DecidableEq, Repr

/-- The status of a running machine, which is also its reset value (R29). -/
def RunStatus.runningStatus : RunStatus := ⟨.running, none, none⟩

/-- The memory image (R40) as pairs of an address and its word, addresses strictly rising, no pair with the
word 0, which is what an unlisted address reads as (R201). Log 2. -/
abbrev Memory := List (Addr × Word)

/-- Why the model stops with a fault. No halt of the spec is one of these: a halt is a next state. -/
inductive Fault where
  /-- Raised by `cycleStep` in a state that is RUNNING with `pc = 100`, whose fetch would name a cell that does
  not exist. R92 says that no run reaches such a state. Safe (log 5). -/
  | fetchOutsideMemory
  deriving DecidableEq, Repr

/-- Why the model gives no next state. -/
inductive Refusal where
  /-- Raised by an arm of `exec` whose instruction has no meaning yet. No arm raises it. Safe. -/
  | notModelled (mnemonic : String)
  /-- Raised by `engineStep` in HALTED, where the engine has no step and the state is final (R90, I2). Safe
  (log 4). -/
  | haltedIsFinal
  deriving DecidableEq, Repr

/-- The machine state (R20), then the two parameters that the model holds as data (R7): `channel`, the answers
that the I/O channel has ready, oldest first (log 3), and `otcTable`, the open part of `OTC_MAP` (log 6). -/
structure State where
  pc : PcVal
  acc : Word
  mem : Memory
  out : List Char
  status : RunStatus
  channel : List Answer
  otcTable : List (Word × Char)
  deriving DecidableEq, Repr

/-- The machine after reset (R22, R24, R27, R28, R29, R200), for the empty image (log 8). -/
def State.reset : State where
  pc := 0
  acc := Word.zero
  mem := []
  out := []
  status := RunStatus.runningStatus
  channel := []
  otcTable := []

/-- What a step answers. -/
abbrev Result := Host.Outcome State Fault Refusal

end Sys2Proof.Machine
end

