-- ==== Sys2Proof/Machine/Ops.lean ====
section
/-!
DEFINITION. The shared operations over memory and registers: `MemRead` and `MemWrite` (spec/20_memory.md
R41, R42), the saturating ALU (spec/42_arithmetic.md R110), the fetch address and the advance
(spec/40_cycle_engine.md R83, R84), `raise Halt` (R88) and the end-of-memory check (R87), and `Append`
(spec/45_io.md R167).
-/

namespace Sys2Proof.Machine

/-- What a cell that the list does not name reads as (R201: cells the image does not fill hold 0). -/
def unlistedWord : Word := Word.zero

/-- `MemRead(a)` (R41). -/
def Memory.read : Memory → Addr → Word
  | [], _ => unlistedWord
  | (k, v) :: rest, a => if k = a then v else Memory.read rest a

/-- A pair in front of a list, left out where its word is what an unlisted address reads as. -/
def Memory.cons (k : Addr) (v : Word) (m : Memory) : Memory :=
  if v = unlistedWord then m else (k, v) :: m

/-- The pair of `a` and `v` at its place in a list that does not name `a`. -/
def Memory.insert (a : Addr) (v : Word) : Memory → Memory
  | [] => Memory.cons a v []
  | (k, x) :: rest =>
    if a < k then Memory.cons a v ((k, x) :: rest) else (k, x) :: Memory.insert a v rest

/-- `MemWrite(a, v)` (R42). -/
def Memory.write (m : Memory) (a : Addr) (v : Word) : Memory :=
  Memory.insert a v (m.filter fun c => c.1 ≠ a)

/-- The canonical form: addresses strictly rising, no pair with the word of an unlisted address (log 2). -/
def Memory.wf : Memory → Bool
  | [] => true
  | (k, v) :: rest => decide (v ≠ unlistedWord) && rest.all (fun c => decide (k < c.1)) && Memory.wf rest

/-- `sat(x) = max(-999, min(999, x))` (R110). -/
def sat (x : Int) : Word := ⟨max (-999) (min 999 x), by omega⟩

/-- The ALU's sum: exact, then saturated (R110). -/
def aluAdd (x y : Word) : Word := sat (x.val + y.val)

/-- The ALU's difference: exact, then saturated (R110). -/
def aluSub (x y : Word) : Word := sat (x.val - y.val)

/-- The cell a fetch reads (R83): `pc` in [0, 99]; there is no cell 100. -/
def fetchAddr (pc : PcVal) : Option Addr :=
  if h : pc.val < 100 then some ⟨pc.val, h⟩ else none

/-- The advance after a fetch from `p` (R84): the program counter takes `p + 1`, no wrap, so 100 after 99. -/
def State.advance (s : State) (p : Addr) : State := { s with pc := p.succ }

/-- `pc <- a`, a taken branch (R143). -/
def State.jump (s : State) (a : Addr) : State := { s with pc := a.castSucc }

/-- `acc <- v`. -/
def State.setAcc (s : State) (v : Word) : State := { s with acc := v }

/-- `MemWrite(a, v)` on the state. -/
def State.store (s : State) (a : Addr) (v : Word) : State := { s with mem := s.mem.write a v }

/-- `Append(t)` (R167). -/
def State.append (s : State) (t : List Char) : State := { s with out := s.out ++ t }

/-- `status.PHASE <- ph`. -/
def State.setPhase (s : State) (ph : Phase) : State := { s with status := { s.status with phase := ph } }

/-- `raise Halt(cause)` (R88): the one operation that every halt takes. It records the `pc` at the halt, which
is the advanced value (R89), and the cause, and nothing else (R180). -/
def raiseHalt (cause : HaltCause) (s : State) : State :=
  { s with status := ⟨.halted, some s.pc, some cause⟩ }

/-- The end-of-memory check (R87): after an execute that did not halt, and for INP after the answer that
completes it (R161), `pc > 99` halts with `NO_MORE`. While INP waits the check has not run yet. -/
def endCheck (s : State) : State :=
  if s.status.phase = .running ∧ 99 < s.pc.val then raiseHalt .noMore s else s

/-- `s` made ready to fetch and run the word `w` in its very next step: the word in the cell that `pc` names (cell
0 where `pc` is 100), the engine RUNNING. For the host's interface `withFetchWord` (log 8). -/
def State.readyToRun (s : State) (w : Word) : State :=
  let p : Addr := (fetchAddr s.pc).getD 0
  { s with pc := p.castSucc, mem := s.mem.write p w, status := RunStatus.runningStatus }

/-- The numeric code of a halt cause (R180, decision D4; log 21). -/
def HaltCause.code : HaltCause → Nat
  | .haltCmd => 0
  | .negInstr => 1
  | .badInstr => 2
  | .noMore => 3

/-- The reason text of a halt cause (R180, decision D5; log 21). -/
def HaltCause.reason : HaltCause → String
  | .haltCmd => "Halt command executed."
  | .negInstr => "Negative instruction...?"
  | .badInstr => "Bad instruction."
  | .noMore => "No more instructions."

/-- The class of a halt cause: only `HALT_CMD` is the normal halt (R185). -/
def HaltCause.isFault (c : HaltCause) : Bool := decide (c ≠ .haltCmd)

end Sys2Proof.Machine
end

