-- ==== Sys2Proof/Machine/Operands.lean ====
section
/-!
DEFINITION. The operand forms (spec/30_encoding.md R63). The only addressing mode is direct: the effective
address is the operand (spec/43_data_movement.md). Format `O` (HLT) and the function selectors of format
`F` (INP, OUT, OTC) read nothing; format `OA` names a cell or a branch target. There are no immediates.
-/

namespace Sys2Proof.Machine

/-- The word that an operand of format `OA` names, for ADD, SUB and LDA (R54, R63). -/
def State.operand (s : State) (a : Addr) : Word := s.mem.read a

/-- The effective address of an operand of format `OA`: the operand itself, never extended, scaled or offset
(R63). -/
def effectiveAddr (a : Addr) : Addr := a

/-- The operand form of each instruction (R63; the `format` column of the opcode table). -/
inductive Format where
  /-- The operand is ignored. -/
  | o
  /-- The operand is an address. -/
  | oa
  /-- The operand is a function selector. -/
  | f
  /-- The word is no instruction. -/
  | illegal
  deriving DecidableEq, Repr

/-- The `format` column of spec/opcode_table.json. -/
def formatOf : Instr → Format
  | .hlt _ => .o
  | .add _ => .oa
  | .sub _ => .oa
  | .sta _ => .oa
  | .lda _ => .oa
  | .bra _ => .oa
  | .brz _ => .oa
  | .brp _ => .oa
  | .inp => .f
  | .out => .f
  | .otc => .f
  | .badOpcode4 _ => .illegal
  | .badOpcode9 _ => .illegal
  | .negInstr _ => .illegal

end Sys2Proof.Machine
end

