-- ==== Sys2Proof/Machine/Arithmetic.lean ====
section
/-!
DEFINITION. ADD and SUB (spec/42_arithmetic.md R111, R112).
-/

namespace Sys2Proof.Machine

/-- ADD: `acc <- sat(acc + MemRead(a))` (R111). -/
def execAdd (a : Addr) (s : State) : Result := .next (s.setAcc (aluAdd s.acc (s.operand (effectiveAddr a))))

/-- SUB: `acc <- sat(acc - MemRead(a))` (R112). -/
def execSub (a : Addr) (s : State) : Result := .next (s.setAcc (aluSub s.acc (s.operand (effectiveAddr a))))

end Sys2Proof.Machine
end

