-- ==== Sys2Proof/Machine/Flags.lean ====
section
/-!
DEFINITION. The machine has no status flags and no condition codes (spec/10_state.md R26): what stands here is
what BRZ and BRP test, the value of the accumulator itself (spec/44_branch.md R141, R142).
-/

namespace Sys2Proof.Machine

/-- The condition of BRZ: `acc = 0` (R141). -/
def State.accIsZero (s : State) : Bool := decide (s.acc.val = 0)

/-- The condition of BRP: `acc >= 0` (R142). -/
def State.accIsNonneg (s : State) : Bool := decide (0 ≤ s.acc.val)

end Sys2Proof.Machine
end

