-- ==== Sys2Proof/Machine/Branch.lean ====
section
/-!
DEFINITION. BRA, BRZ and BRP (spec/44_branch.md R140 to R143). A branch not taken leaves the advanced `pc`.
-/

namespace Sys2Proof.Machine

/-- BRA: `pc <- a` (R140). -/
def execBra (a : Addr) (s : State) : Result := .next (s.jump (effectiveAddr a))

/-- BRZ: `if acc = 0 then pc <- a` (R141). -/
def execBrz (a : Addr) (s : State) : Result := .next (if s.accIsZero then s.jump (effectiveAddr a) else s)

/-- BRP: `if acc >= 0 then pc <- a` (R142). -/
def execBrp (a : Addr) (s : State) : Result := .next (if s.accIsNonneg then s.jump (effectiveAddr a) else s)

end Sys2Proof.Machine
end

