-- ==== Sys2Proof/Machine/DataMovement.lean ====
section
/-!
DEFINITION. STA and LDA (spec/43_data_movement.md R130, R131): opcode 3 stores, opcode 5 loads
(spec/90_conflicts.md C6, C7).
-/

namespace Sys2Proof.Machine

/-- STA: `MemWrite(a, acc)` (R130). -/
def execSta (a : Addr) (s : State) : Result := .next (s.store (effectiveAddr a) s.acc)

/-- LDA: `acc <- MemRead(a)` (R131). -/
def execLda (a : Addr) (s : State) : Result := .next (s.setAcc (s.operand (effectiveAddr a)))

end Sys2Proof.Machine
end

