-- ==== Sys2Proof/Machine/Halt.lean ====
section
/-!
DEFINITION. HLT (spec/41_halt.md R100) and the words that halt at decode (spec/60_exceptions.md R182, R183).
Every one of them raises its halt, which is a next state (R88).
-/

namespace Sys2Proof.Machine

/-- HLT halts with `HALT_CMD`, whatever its operand (R100, R181). -/
def execHlt (_a : Addr) (s : State) : Result := .next (raiseHalt .haltCmd s)

/-- A word 400..499 halts with `BAD_INSTR` (R66, R183). -/
def execBadOpcode4 (_a : Addr) (s : State) : Result := .next (raiseHalt .badInstr s)

/-- A word 9aa with no function halts with `BAD_INSTR` (R65, R183). -/
def execBadOpcode9 (_a : Addr) (s : State) : Result := .next (raiseHalt .badInstr s)

/-- A negative word halts with `NEG_INSTR` (R61, R182). -/
def execNegInstr (_w : Word) (s : State) : Result := .next (raiseHalt .negInstr s)

end Sys2Proof.Machine
end

