-- ==== Sys2Proof/Machine/Io.lean ====
section
/-!
DEFINITION. INP, OUT and OTC, and the input step that completes an INP (spec/45_io.md R161 to R166).
-/

namespace Sys2Proof.Machine

/-- The decimal digits of a number below 1000, no leading zeros, "0" for zero (R164). -/
def decDigits (n : Nat) : List Char :=
  if n < 10 then [Nat.digitChar n]
  else if n < 100 then [Nat.digitChar (n / 10), Nat.digitChar (n % 10)]
  else [Nat.digitChar (n / 100), Nat.digitChar (n / 10 % 10), Nat.digitChar (n % 10)]

/-- `dec(v)` (R164): '-' for a negative value, never '+', no padding (log 10). -/
def dec (v : Word) : List Char :=
  if v.val < 0 then '-' :: decDigits v.val.natAbs else decDigits v.val.natAbs

/-- What OUT appends for the value `v`: the number and the separator (R163). -/
def outToken (v : Word) : List Char := dec v ++ [Config.separator]

/-- The default of `OTC_MAP`: the character whose code point is `v mod 256`, the residue in [0, 255] (R166,
decision D10). -/
def otcDefault (v : Word) : Char := Char.ofNat (v.val % 256).toNat

/-- `OTC_MAP(v)` (R166): for `v` in [0, 255] the character with code point `v`, on which every reading of the
source agrees; outside it what the machine's table says, and the default where the table says nothing
(log 6). -/
def otcMap (table : List (Word × Char)) (v : Word) : Char :=
  if 0 ≤ v.val ∧ v.val ≤ 255 then otcDefault v else (table.lookup v).getD (otcDefault v)

/-- OUT: `Append(dec(acc) ++ " ")` (R163). -/
def execOut (s : State) : Result := .next (s.append (outToken s.acc))

/-- OTC: `Append([OTC_MAP(acc)])` (R165). -/
def execOtc (s : State) : Result := .next (s.append [otcMap s.otcTable s.acc])

/-- INP, its execute part: `status.PHASE <- WAIT_INPUT`; the input steps complete it (R161, R162). -/
def execInp (s : State) : Result := .next (s.setPhase .waitInput)

/-- `input_step` (R161): a malformed answer leaves the machine waiting; a word is written to `acc`, the engine
runs again, and the end-of-memory check of the INP's invocation is made. -/
def inputStep (ans : Answer) (s : State) : State :=
  match ans with
  | .malformed => s
  | .word v => endCheck ((s.setAcc v).setPhase .running)

end Sys2Proof.Machine
end

