-- ==== Sys2Proof/Machine/Dispatch.lean ====
section
/-! DEFINITION. One arm per instruction: its meaning, from the state after the advance (spec/40_cycle_engine.md R86). -/

namespace Sys2Proof.Machine

def exec (i : Instr) (s : State) : Host.Outcome State Fault Refusal :=
  match i with
  | .hlt a => Sys2Proof.Machine.execHlt a s
  | .add a => Sys2Proof.Machine.execAdd a s
  | .sub a => Sys2Proof.Machine.execSub a s
  | .sta a => Sys2Proof.Machine.execSta a s
  | .lda a => Sys2Proof.Machine.execLda a s
  | .bra a => Sys2Proof.Machine.execBra a s
  | .brz a => Sys2Proof.Machine.execBrz a s
  | .brp a => Sys2Proof.Machine.execBrp a s
  | .inp => Sys2Proof.Machine.execInp s
  | .out => Sys2Proof.Machine.execOut s
  | .otc => Sys2Proof.Machine.execOtc s
  | .badOpcode4 a => Sys2Proof.Machine.execBadOpcode4 a s
  | .badOpcode9 a => Sys2Proof.Machine.execBadOpcode9 a s
  | .negInstr w => Sys2Proof.Machine.execNegInstr w s

end Sys2Proof.Machine
end

