-- ==== Sys2Proof/Machine/Engine.lean ====
section
/-!
DEFINITION. The cycle engine: the cycle step (spec/40_cycle_engine.md R82, R91) and the choice of transition by
`status.PHASE` (R80).
-/

namespace Sys2Proof.Machine

/-- The end-of-memory check on what execute answered (R87). -/
def finishCycle : Result → Result
  | .next t => .next (endCheck t)
  | .fault r => .fault r
  | .refused r => .refused r

/-- The cycle step (R91): fetch, advance, decode, execute, end-of-memory check, in this order (R82). -/
def cycleStep (s : State) : Result :=
  match fetchAddr s.pc with
  | none => .fault .fetchOutsideMemory
  | some p => finishCycle (exec (decode (s.mem.read p)) (s.advance p))

/-- The input step on the next answer of the channel (R162). Where the channel has none ready the machine waits,
its state as it was: the wait has no bound (R162, I5; log 3). -/
def awaitAnswer (s : State) : State :=
  match s.channel with
  | [] => s
  | ans :: rest => inputStep ans { s with channel := rest }

/-- One transition of the engine: a cycle step in RUNNING, an input step in WAIT_INPUT, none in HALTED (R80,
R90). -/
def engineStep (s : State) : Result :=
  match s.status.phase with
  | .running => cycleStep s
  | .waitInput => .next (awaitAnswer s)
  | .halted => .refused .haltedIsFinal

end Sys2Proof.Machine
end

