-- ==== Sys2Proof/Machine/Step.lean ====
section
/-!
DEFINITION. The step of the machine, and the placing of a word where the next step fetches.
-/

namespace Sys2Proof.Machine

/-- One transition of the engine (spec/40_cycle_engine.md R80, R81). -/
def step (s : State) : Host.Outcome State Fault Refusal := engineStep s

/-- `s` with the word that the bits `w` stand for stored where `step` fetches next, and the engine RUNNING, so that
the next step runs it; `s` itself where the bits stand for no word (log 7, log 8). -/
def State.withFetchWord (s : State) (nbits w : Nat) : State :=
  match wordOfBits nbits w with
  | none => s
  | some v => s.readyToRun v

end Sys2Proof.Machine
end

