-- ==== Sys2Proof/Machine/Interface.lean ====
section
/-!
DEFINITION. The block's interface with its host (spec/40_cycle_engine.md R95, R96, R98) and the loader's contract
(spec/70_reset_and_hazards.md R200 to R204).
-/

namespace Sys2Proof.Machine

/-- The step outcome of a completed invocation (R88). -/
inductive StepOutcome where
  /-- The run goes on. -/
  | continues
  /-- The run has ended, with its halt address and cause. -/
  | halted (addr : PcVal) (cause : HaltCause)
  deriving DecidableEq, Repr

/-- The state that the host can read (R96): `pc`, `acc`, all 100 cells in order, `out`. -/
structure View where
  pc : PcVal
  acc : Word
  cells : List Word
  out : List Char
  deriving DecidableEq, Repr

/-- Port `view`. -/
def State.view (s : State) : View where
  pc := s.pc
  acc := s.acc
  cells := (List.finRange 100).map s.mem.read
  out := s.out

/-- Port `outcome`, read from the state an invocation leaves (R88); none while an INP waits, whose invocation has
not completed (R162; log 15). -/
def State.stepOutcome (s : State) : Option StepOutcome :=
  match s.status.phase, s.status.haltAddr, s.status.haltCause with
  | .running, _, _ => some .continues
  | .halted, some a, some c => some (.halted a c)
  | .halted, _, _ => none
  | .waitInput, _, _ => none

/-- Port `in_req`: asserted exactly while `PHASE = WAIT_INPUT` (R95). -/
def State.inReq (s : State) : Bool := decide (s.status.phase = .waitInput)

/-- Port `step_req`: honoured in RUNNING, no transition otherwise (R95, R98). -/
def stepReq (s : State) : Result :=
  match s.status.phase with
  | .running => cycleStep s
  | .waitInput => .next s
  | .halted => .next s

/-- Port `in_ans`: accepted only while `in_req` is asserted, one answer per input step (R95). -/
def inAns (ans : Answer) (s : State) : State := if s.inReq then inputStep ans s else s

/-- Port `out_chars`: the characters that a step from `s` to `t` appended to the output record (R95, R168). -/
def outChars (s t : State) : List Char := t.out.drop s.out.length

/-- Answers that the channel makes ready, after those it has (log 3). -/
def State.offerAnswers (s : State) (answers : List Answer) : State :=
  { s with channel := s.channel ++ answers }

/-- A line of text that reaches the channel (R160): its conversion is the channel's own (log 14). -/
def State.offerLine (s : State) (line : String) : State := s.offerAnswers [Config.channelConvert line]

/-- The cells of an image, from cell `n` on, in canonical form. -/
def Memory.ofImage (n : Nat) : List Word → Memory
  | [] => []
  | v :: rest =>
    if h : n < 100 then Memory.cons ⟨n, h⟩ v (Memory.ofImage (n + 1) rest) else []

/-- Port `load(image)` (R95, R200, R201): a fresh state with the image's words in cells 0 to `len - 1` and zero
elsewhere; nothing is constructed from more than 100 words (R202). -/
def load (image : List Word) : Option State :=
  if image.length ≤ 100 then some { State.reset with mem := Memory.ofImage 0 image } else none

/-- A token of the program text, as the loader's parser hands it on; parsing itself is out of scope (R6). -/
inductive Token where
  /-- A decimal integer, of any size. -/
  | integer (v : Int)
  /-- A token that is not an integer. -/
  | other
  deriving DecidableEq, Repr

/-- Why a load fails (R202). -/
inductive LoadError where
  /-- A token is not an integer, or (R203) is one outside the word range. -/
  | parse
  /-- More than 100 tokens. -/
  | inputTooLong
  deriving DecidableEq, Repr

/-- The word of a token (R202, R203). -/
def Token.word? : Token → Option Word
  | .integer v => Word.ofInt? v
  | .other => none

/-- The words of a list of tokens, all of them or none. -/
def wordsOfTokens : List Token → Option (List Word)
  | [] => some []
  | t :: rest =>
    match t.word?, wordsOfTokens rest with
    | some w, some ws => some (w :: ws)
    | _, _ => none

/-- The loader's contract on tokens (R201 to R203): 101 or more tokens always fail with the capacity error, never a
partial state (log 13). -/
def loadTokens (tokens : List Token) : Except LoadError State :=
  if 100 < tokens.length then .error .inputTooLong
  else
    match wordsOfTokens tokens with
    | none => .error .parse
    | some image => .ok { State.reset with mem := Memory.ofImage 0 image }

end Sys2Proof.Machine
end

