-- ==== Sys2Proof/Safety.lean ====
section
/-!
DEFINITION. What counts as a sound state and a safe run of the lmc-core, and the terms that the statements use.
-/

namespace Sys2Proof.Machine

/-- The words of the two BAD_INSTR rows (spec/30_encoding.md R64). -/
def IsBadWord (w : Word) : Prop :=
  (400 ≤ w.val ∧ w.val ≤ 499) ∨
  (900 ≤ w.val ∧ w.val ≤ 999 ∧ w.val ≠ 901 ∧ w.val ≠ 902 ∧ w.val ≠ 922)

/-- A halt cause fits the word `w` fetched from cell `p` (spec/60_exceptions.md R180, column "raised by"). -/
def CauseFits (c : HaltCause) (p : Addr) (w : Word) : Prop :=
  match c with
  | .haltCmd => 0 ≤ w.val ∧ w.val ≤ 99
  | .negInstr => w.val < 0
  | .badInstr => IsBadWord w
  | .noMore => p.val = 99

/-- The invariant of the engine, in every phase. -/
structure State.Sound (s : State) : Prop where
  /-- The memory list is in its canonical form (log 2). -/
  memory : s.mem.wf = true
  /-- RUNNING has `pc` in [0, 99] (R92). -/
  running : s.status.phase = .running → s.pc.val ≤ 99
  /-- The halt record is empty before the halt (R29). -/
  noRecord : s.status.phase ≠ .halted → s.status.haltAddr = none ∧ s.status.haltCause = none
  /-- WAIT_INPUT holds the advanced `pc` of a fetched 901 (R31, R161). -/
  waiting : s.status.phase = .waitInput → ∃ p : Addr, s.pc = p.succ ∧ (s.mem.read p).val = 901
  /-- HALTED has recorded the advanced `pc` and a cause that fits the fetched word (R88, R89, R180). -/
  record : s.status.phase = .halted →
    ∃ p c, s.pc = p.succ ∧ s.status.haltAddr = some s.pc ∧ s.status.haltCause = some c ∧
      CauseFits c p (s.mem.read p)

/-- The engine is RUNNING at cell `p`, which holds a word of value `w`. -/
def RunsAt (s : State) (p : Addr) (w : Int) : Prop :=
  s.status.phase = .running ∧ s.pc = p.castSucc ∧ (s.mem.read p).val = w

/-- HALTED with the address and the cause given. -/
def State.HaltedWith (s : State) (addr : PcVal) (c : HaltCause) : Prop :=
  s.status.phase = .halted ∧ s.status.haltAddr = some addr ∧ s.status.haltCause = some c

/-- `t` has the parameters of `s`, those the model holds as data. -/
def SameParams (s t : State) : Prop := t.channel = s.channel ∧ t.otcTable = s.otcTable

/-- Every cell reads in `t` as in `s`. -/
def SameCells (s t : State) : Prop := ∀ b : Addr, t.mem.read b = s.mem.read b

/-- `t` differs from `s` at most in `acc`. -/
def OnlyAcc (s t : State) : Prop :=
  t.pc = s.pc ∧ t.out = s.out ∧ t.status = s.status ∧ SameCells s t ∧ SameParams s t

/-- `t` differs from `s` at most in `pc`. -/
def OnlyPc (s t : State) : Prop :=
  t.acc = s.acc ∧ t.out = s.out ∧ t.status = s.status ∧ SameCells s t ∧ SameParams s t

/-- `t` differs from `s` at most in `out`. -/
def OnlyOut (s t : State) : Prop :=
  t.pc = s.pc ∧ t.acc = s.acc ∧ t.status = s.status ∧ SameCells s t ∧ SameParams s t

/-- `t` differs from `s` at most in `status`. -/
def OnlyStatus (s t : State) : Prop :=
  t.pc = s.pc ∧ t.acc = s.acc ∧ t.out = s.out ∧ SameCells s t ∧ SameParams s t

/-- How a step that began at cell `p` and neither halted in execute nor loaded `pc` ends: `pc` is advanced; from
cell 99 the machine halts with `NO_MORE` at address 100, from any other cell the status is as it was
(spec/40_cycle_engine.md R84, R87). -/
def FallsThrough (s : State) (p : Addr) (t : State) : Prop :=
  t.pc = p.succ ∧ (p.val < 99 → t.status = s.status) ∧ (p.val = 99 → t.HaltedWith 100 .noMore)

/-- The cell that an instruction's store writes, by the effective address its meaning uses; none for a form that
stores nothing (spec/20_memory.md R42, R54). -/
def storeAddr : Instr → Option Addr
  | .sta a => some (effectiveAddr a)
  | .hlt _ => none
  | .add _ => none
  | .sub _ => none
  | .lda _ => none
  | .bra _ => none
  | .brz _ => none
  | .brp _ => none
  | .inp => none
  | .out => none
  | .otc => none
  | .badOpcode4 _ => none
  | .badOpcode9 _ => none
  | .negInstr _ => none

end Sys2Proof.Machine
end

