-- ==== Sys2Proof/Certificates/Slice0/Obligations.lean ====
section
/-!
DEFINITION. The statements about the model. Each docstring names what of spec/ it says; "the spec's decision D<n>"
is a choice that spec/92_eei_decisions.md marks as the spec's own, and "log n" one of the model's.
-/

open Sys2Proof Sys2Proof.Machine

/-! ### Encoding -/

/-- The decode vectors D1 to D22 of spec/95_test_vectors.md; the digits that the terms of HLT and of the illegal rows keep
are the model's (log 9). -/
def Obligations.DecodeSampleWords : Prop :=
  [-1, -999, 0, 99, 100, 199, 250, 342, 400, 499, 507, 600, 799, 801, 900, 901, 902, 903, 921, 922, 923, 999].map
      (fun i => (Word.ofInt? i).map decode) =
    [some (.negInstr ⟨-1, by decide⟩), some (.negInstr ⟨-999, by decide⟩), some (.hlt 0), some (.hlt 99),
     some (.add 0), some (.add 99), some (.sub 50), some (.sta 42), some (.badOpcode4 0), some (.badOpcode4 99),
     some (.lda 7), some (.bra 0), some (.brz 99), some (.brp 1), some (.badOpcode9 0), some .inp, some .out,
     some (.badOpcode9 3), some (.badOpcode9 21), some .otc, some (.badOpcode9 23), some (.badOpcode9 99)]

/-- Decode of encode is the instruction, for every well-formed one. That the terms of HLT and of the illegal rows keep the
digits they ignore, which this gives back too, is the model's choice: log 9. -/
def Obligations.DecodeEncodeRoundTrip : Prop :=
  ∀ i : Instr, i.wellFormed = true → decode (encode i) = i

/-- Every word decodes to a well-formed instruction term that encodes to the word again, so no two words share a term.
That rests on the model's choice of log 9: `hlt` and the illegal rows keep the digits they ignore, where the spec
(R67, R68) maps all of 000..099 to one HLT and every illegal word to one BAD_INSTR or NEG_INSTR. -/
def Obligations.EncodeDecodeRoundTrip : Prop :=
  ∀ w : Word, (decode w).wellFormed = true ∧ encode (decode w) = w

/-- The two fields of a word that is not negative (R62). -/
def Obligations.WordSplitsIntoOpcodeAndOperand : Prop :=
  ∀ w : Word, 0 ≤ w.val →
    opcodeDigit w ≤ 9 ∧ (opcodeDigit w : Int) = w.val / 100 ∧ ((operandOf w).val : Int) = w.val % 100 ∧
    w.val = 100 * (opcodeDigit w : Int) + ((operandOf w).val : Int)

/-- The opcode map (R64, R68), each row by the words it holds; the digits that the terms of HLT and of the illegal rows
keep are the model's (log 9). -/
def Obligations.DecodeFollowsOpcodeMap : Prop :=
  ∀ w : Word,
    (w.val < 0 → decode w = .negInstr w) ∧
    ∀ a : Addr,
      (w.val = 0 + a.val → decode w = .hlt a) ∧
      (w.val = 100 + a.val → decode w = .add a) ∧
      (w.val = 200 + a.val → decode w = .sub a) ∧
      (w.val = 300 + a.val → decode w = .sta a) ∧
      (w.val = 400 + a.val → decode w = .badOpcode4 a) ∧
      (w.val = 500 + a.val → decode w = .lda a) ∧
      (w.val = 600 + a.val → decode w = .bra a) ∧
      (w.val = 700 + a.val → decode w = .brz a) ∧
      (w.val = 800 + a.val → decode w = .brp a) ∧
      (w.val = 901 → decode w = .inp) ∧
      (w.val = 902 → decode w = .out) ∧
      (w.val = 922 → decode w = .otc) ∧
      (w.val = 900 + a.val → a.val ≠ 1 → a.val ≠ 2 → a.val ≠ 22 → decode w = .badOpcode9 a)

/-- The model's reading of 16 numbered bits as a word in two's complement, and what a fetch of it runs: log 7 and
log 8, no rule of the spec. -/
def Obligations.FetchWordRunsItsInstruction : Prop :=
  ∀ (s : State) (w : Word) (n : Nat),
    (n : Int) = (if 0 ≤ w.val then w.val else w.val + 65536) →
      decodeTableWord 16 n = some (decode w) ∧
      ∃ p : Addr, RunsAt (s.withFetchWord 16 n) p w.val ∧
        (s.pc.val ≤ 99 → s.pc = p.castSucc) ∧
        (∀ b : Addr, b ≠ p → (s.withFetchWord 16 n).mem.read b = s.mem.read b) ∧
        (s.withFetchWord 16 n).acc = s.acc ∧ (s.withFetchWord 16 n).out = s.out ∧
        SameParams s (s.withFetchWord 16 n)

/-! ### Reset and load -/

/-- A load of at most 100 words constructs the reset state with the image in its cells and zero elsewhere (R22, R24,
R27, R201); nothing is constructed from more words. -/
def Obligations.LoadConstructsTheResetState : Prop :=
  ∀ image : List Word,
    (image.length ≤ 100 → ∃ s, load image = some s ∧ s.pc = 0 ∧ s.acc.val = 0 ∧ s.out = [] ∧
      s.status.phase = .running ∧ s.status.haltAddr = none ∧ s.status.haltCause = none ∧
      ∀ a : Addr, s.mem.read a = image.getD a.val ⟨0, by decide⟩) ∧
    (100 < image.length → load image = none)

/-- The state after reset, field by field (R22, R24, R28, R29; the image is the empty one, log 8). -/
def Obligations.ResetStateFields : Prop :=
  State.reset.pc.val = 0 ∧ State.reset.acc.val = 0 ∧ (∀ a : Addr, (State.reset.mem.read a).val = 0) ∧
  State.reset.out = [] ∧ State.reset.status.phase = .running ∧ State.reset.status.haltAddr = none ∧
  State.reset.status.haltCause = none ∧ load [] = some State.reset

/-- The loader's contract on tokens (R202): more than 100 tokens always fail with the capacity error; among at most
100, one that is not an integer fails the load; words load as `load` says. -/
def Obligations.LoadTokensContract : Prop :=
  (∀ tokens : List Token, 100 < tokens.length → loadTokens tokens = .error .inputTooLong) ∧
  (∀ tokens : List Token, tokens.length ≤ 100 → Token.other ∈ tokens → loadTokens tokens = .error .parse) ∧
  (∀ image : List Word, image.length ≤ 100 →
    ∃ s, load image = some s ∧ loadTokens (image.map fun w => Token.integer w.val) = .ok s)

/-- A token outside the word range is a load error like a parse error: the spec's decision D18. -/
def Obligations.LoadTokensRefuseOutOfRange : Prop :=
  ∀ (tokens : List Token) (i : Int), tokens.length ≤ 100 → Token.integer i ∈ tokens → (i < -999 ∨ 999 < i) →
    loadTokens tokens = .error .parse

/-! ### Arithmetic and data movement -/

/-- The ALU saturates both operations at both bounds and is exact between them (R110). -/
def Obligations.SaturationClampsBothBounds : Prop :=
  (∀ x : Int, (sat x).val = max (-999) (min 999 x)) ∧
  (∀ x y : Word, -1998 ≤ x.val + y.val ∧ x.val + y.val ≤ 1998 ∧ -1998 ≤ x.val - y.val ∧ x.val - y.val ≤ 1998) ∧
  (∀ x y : Word,
    (999 < x.val + y.val → (aluAdd x y).val = 999) ∧
    (x.val + y.val < -999 → (aluAdd x y).val = -999) ∧
    (-999 ≤ x.val + y.val → x.val + y.val ≤ 999 → (aluAdd x y).val = x.val + y.val) ∧
    (999 < x.val - y.val → (aluSub x y).val = 999) ∧
    (x.val - y.val < -999 → (aluSub x y).val = -999) ∧
    (-999 ≤ x.val - y.val → x.val - y.val ≤ 999 → (aluSub x y).val = x.val - y.val))

/-- ADD (R111): its words, its result and frame, its step from any cell, `NO_MORE` after the write from cell 99. -/
def Obligations.AddInstruction : Prop :=
  ∀ a : Addr,
    (∀ w : Word, w.val = 100 + a.val → decode w = .add a) ∧
    (∀ s : State, ∃ t, exec (.add a) s = .next t ∧
      t.acc.val = max (-999) (min 999 (s.acc.val + (s.mem.read a).val)) ∧ OnlyAcc s t) ∧
    (∀ (s : State) (p : Addr), RunsAt s p (100 + a.val) → ∃ t, step s = .next t ∧
      t.acc.val = max (-999) (min 999 (s.acc.val + (s.mem.read a).val)) ∧
      t.out = s.out ∧ SameCells s t ∧ SameParams s t ∧ FallsThrough s p t)

/-- SUB (R112), as ADD. -/
def Obligations.SubInstruction : Prop :=
  ∀ a : Addr,
    (∀ w : Word, w.val = 200 + a.val → decode w = .sub a) ∧
    (∀ s : State, ∃ t, exec (.sub a) s = .next t ∧
      t.acc.val = max (-999) (min 999 (s.acc.val - (s.mem.read a).val)) ∧ OnlyAcc s t) ∧
    (∀ (s : State) (p : Addr), RunsAt s p (200 + a.val) → ∃ t, step s = .next t ∧
      t.acc.val = max (-999) (min 999 (s.acc.val - (s.mem.read a).val)) ∧
      t.out = s.out ∧ SameCells s t ∧ SameParams s t ∧ FallsThrough s p t)

/-- STA (R130): the cell at the effective address takes `acc`, every other cell reads as before, `acc` is unchanged. -/
def Obligations.StaInstruction : Prop :=
  ∀ a : Addr,
    (∀ w : Word, w.val = 300 + a.val → decode w = .sta a) ∧ effectiveAddr a = a ∧
    (∀ s : State, ∃ t, exec (.sta a) s = .next t ∧ t.mem.read (effectiveAddr a) = s.acc ∧
      (∀ b : Addr, b ≠ effectiveAddr a → t.mem.read b = s.mem.read b) ∧
      t.pc = s.pc ∧ t.acc = s.acc ∧ t.out = s.out ∧ t.status = s.status ∧ SameParams s t) ∧
    (∀ (s : State) (p : Addr), RunsAt s p (300 + a.val) → ∃ t, step s = .next t ∧
      t.mem.read (effectiveAddr a) = s.acc ∧ (∀ b : Addr, b ≠ effectiveAddr a → t.mem.read b = s.mem.read b) ∧
      t.acc = s.acc ∧ t.out = s.out ∧ SameParams s t ∧ FallsThrough s p t)

/-- LDA (R131): `acc` takes the word of the cell exactly, memory is unchanged. -/
def Obligations.LdaInstruction : Prop :=
  ∀ a : Addr,
    (∀ w : Word, w.val = 500 + a.val → decode w = .lda a) ∧
    (∀ s : State, ∃ t, exec (.lda a) s = .next t ∧ t.acc = s.mem.read a ∧ OnlyAcc s t) ∧
    (∀ (s : State) (p : Addr), RunsAt s p (500 + a.val) → ∃ t, step s = .next t ∧ t.acc = s.mem.read a ∧
      t.out = s.out ∧ SameCells s t ∧ SameParams s t ∧ FallsThrough s p t)

/-! ### Branches -/

/-- The three branches (R143): the target is the operand of the word; a taken one writes it to `pc`, one not taken
leaves the advanced `pc`, and none writes anything else. -/
def Obligations.BranchesWriteOnlyPc : Prop :=
  ∀ (a : Addr) (s : State),
    (∀ w : Word, (w.val = 600 + a.val → decode w = .bra a) ∧ (w.val = 700 + a.val → decode w = .brz a) ∧
      (w.val = 800 + a.val → decode w = .brp a)) ∧
    (∃ t, exec (.bra a) s = .next t ∧ t.pc.val = a.val ∧ OnlyPc s t) ∧
    (∃ t, exec (.brz a) s = .next t ∧ (s.acc.val = 0 → t.pc.val = a.val) ∧ (s.acc.val ≠ 0 → t.pc = s.pc) ∧
      OnlyPc s t) ∧
    (∃ t, exec (.brp a) s = .next t ∧ (0 ≤ s.acc.val → t.pc.val = a.val) ∧ (s.acc.val < 0 → t.pc = s.pc) ∧
      OnlyPc s t)

/-- A step of BRA goes on at its operand from every cell, 99 too; to its own cell it leaves the state as it was. -/
def Obligations.BraStep : Prop :=
  ∀ (s : State) (p a : Addr), RunsAt s p (600 + a.val) →
    ∃ t, step s = .next t ∧ t.pc.val = a.val ∧ OnlyPc s t ∧ (a = p → t = s)

/-- A step of BRZ: taken where `acc = 0`; not taken it falls through, from cell 99 into `NO_MORE` at 100 (the spec's
decision D7). -/
def Obligations.BrzStep : Prop :=
  ∀ (s : State) (p a : Addr), RunsAt s p (700 + a.val) →
    ∃ t, step s = .next t ∧ t.acc = s.acc ∧ t.out = s.out ∧ SameCells s t ∧ SameParams s t ∧
      (s.acc.val = 0 → t.pc.val = a.val ∧ t.status = s.status) ∧
      (s.acc.val ≠ 0 → FallsThrough s p t)

/-- A step of BRP: taken where `acc >= 0`; not taken it falls through, from cell 99 into `NO_MORE` at 100 (the spec's
decision D7). -/
def Obligations.BrpStep : Prop :=
  ∀ (s : State) (p a : Addr), RunsAt s p (800 + a.val) →
    ∃ t, step s = .next t ∧ t.acc = s.acc ∧ t.out = s.out ∧ SameCells s t ∧ SameParams s t ∧
      (0 ≤ s.acc.val → t.pc.val = a.val ∧ t.status = s.status) ∧
      (s.acc.val < 0 → FallsThrough s p t)

/-! ### Halts -/

/-- HLT (R181): every word 0 to 99 halts with `HALT_CMD` at the address after the HLT, and nothing else changes. -/
def Obligations.HltInstruction : Prop :=
  (∀ (a : Addr) (s : State), ∃ t, exec (.hlt a) s = .next t ∧ t.HaltedWith s.pc .haltCmd ∧ OnlyStatus s t) ∧
  (∀ (s : State) (p a : Addr), RunsAt s p a.val → ∃ t, step s = .next t ∧ t.HaltedWith p.succ .haltCmd ∧
    t.pc = p.succ ∧ t.acc = s.acc ∧ t.out = s.out ∧ SameCells s t ∧ SameParams s t)

/-- A negative word halts with `NEG_INSTR` and changes nothing but the advanced `pc`; the halt address, the fetch
address plus one, is the spec's decision D3. -/
def Obligations.NegativeWordHalts : Prop :=
  (∀ (w : Word) (s : State), ∃ t, exec (.negInstr w) s = .next t ∧ t.HaltedWith s.pc .negInstr ∧ OnlyStatus s t) ∧
  (∀ (s : State) (p : Addr) (i : Int), RunsAt s p i → i < 0 → ∃ t, step s = .next t ∧
    t.HaltedWith p.succ .negInstr ∧ t.pc = p.succ ∧ t.acc = s.acc ∧ t.out = s.out ∧ SameCells s t ∧
    SameParams s t)

/-- A word of the two BAD_INSTR rows halts with `BAD_INSTR` and changes nothing but the advanced `pc`; the halt
address is the spec's decision D3. -/
def Obligations.BadWordHalts : Prop :=
  (∀ (a : Addr) (s : State), ∃ t, exec (.badOpcode4 a) s = .next t ∧ t.HaltedWith s.pc .badInstr ∧ OnlyStatus s t) ∧
  (∀ (a : Addr) (s : State), ∃ t, exec (.badOpcode9 a) s = .next t ∧ t.HaltedWith s.pc .badInstr ∧ OnlyStatus s t) ∧
  (∀ (s : State) (p : Addr) (w : Word), RunsAt s p w.val → IsBadWord w → ∃ t, step s = .next t ∧
    t.HaltedWith p.succ .badInstr ∧ t.pc = p.succ ∧ t.acc = s.acc ∧ t.out = s.out ∧ SameCells s t ∧
    SameParams s t)

/-- `NO_MORE` (R184): an instruction fetched from cell 99 that completes without loading `pc` (execute leaves the
engine RUNNING with `pc = 100`) halts with `NO_MORE` at address 100, and every effect of it has happened; a cycle
step halts with `NO_MORE` only so; and an INP fetched from cell 99 halts so in the input step that writes `acc`. -/
def Obligations.NoMoreAfterTheLastCell : Prop :=
  (∀ (s t : State), s.status.phase = .running → s.pc = 99 →
    exec (decode (s.mem.read 99)) (s.advance 99) = .next t → t.status.phase = .running → t.pc = 100 →
    ∃ u, step s = .next u ∧ u.HaltedWith 100 .noMore ∧ OnlyStatus t u) ∧
  (∀ (s u : State) (c : PcVal), s.status.phase = .running → step s = .next u → u.HaltedWith c .noMore →
    c = 100 ∧ s.pc = 99 ∧ ∃ t, exec (decode (s.mem.read 99)) (s.advance 99) = .next t ∧
      t.status.phase = .running ∧ t.pc = 100 ∧ OnlyStatus t u) ∧
  (∀ (s : State) (v : Word) (rest : List Answer), s.status.phase = .waitInput → s.pc = 100 →
    s.channel = .word v :: rest →
    ∃ u, step s = .next u ∧ u.HaltedWith 100 .noMore ∧ u.acc = v ∧ u.pc = s.pc ∧ u.out = s.out ∧ SameCells s u)

/-- How a step from RUNNING at cell `p` ends, by the fetched word alone but for the branch conditions: which halt,
with its cause (R180, R187) at the advanced `pc` (the spec's decisions D3 and D7), or the wait of INP. From cell 99 a
halt at decode keeps its own cause. -/
def Obligations.RunningStepEndsByTheFetchedWord : Prop :=
  ∀ (s : State) (p : Addr) (w : Word), RunsAt s p w.val →
    ∃ t, step s = .next t ∧
      (t.HaltedWith p.succ .negInstr ↔ w.val < 0) ∧
      (t.HaltedWith p.succ .haltCmd ↔ 0 ≤ w.val ∧ w.val ≤ 99) ∧
      (t.HaltedWith p.succ .badInstr ↔ IsBadWord w) ∧
      (t.HaltedWith p.succ .noMore ↔ p.val = 99 ∧
        ((100 ≤ w.val ∧ w.val ≤ 399) ∨ (500 ≤ w.val ∧ w.val ≤ 599) ∨ w.val = 902 ∨ w.val = 922 ∨
         (700 ≤ w.val ∧ w.val ≤ 799 ∧ s.acc.val ≠ 0) ∨ (800 ≤ w.val ∧ w.val ≤ 899 ∧ s.acc.val < 0))) ∧
      (t.status.phase = .waitInput ↔ w.val = 901) ∧
      (t.status.phase = .halted → t.status.haltAddr = some p.succ ∧ t.pc = p.succ)

/-- The codes, texts and classes of the halt causes: the spec's decisions D4, D5 and D8. -/
def Obligations.HaltCauseTable : Prop :=
  [HaltCause.haltCmd, .negInstr, .badInstr, .noMore].map (fun c => (c.code, c.reason, c.isFault)) =
    [(0, "Halt command executed.", false), (1, "Negative instruction...?", true), (2, "Bad instruction.", true),
     (3, "No more instructions.", true)]

/-! ### Input and output -/

/-- INP (R161): the execute part waits; a malformed answer is dropped and the wait goes on with nothing changed; the
first word is written to `acc`, the engine runs on, and an INP fetched from cell 99 then halts with `NO_MORE`. -/
def Obligations.InpInstruction : Prop :=
  (∀ w : Word, w.val = 901 → decode w = .inp) ∧
  (∀ s : State, ∃ t, exec .inp s = .next t ∧ t.status.phase = .waitInput ∧
    t.status.haltAddr = s.status.haltAddr ∧ t.status.haltCause = s.status.haltCause ∧
    t.pc = s.pc ∧ t.acc = s.acc ∧ t.out = s.out ∧ SameCells s t ∧ SameParams s t ∧
    (∀ v rest, s.channel = .word v :: rest → ∃ u, step t = .next u ∧ u.acc = v ∧ u.channel = rest)) ∧
  (∀ (s : State) (p : Addr), RunsAt s p 901 → ∃ t, step s = .next t ∧ t.status.phase = .waitInput ∧
    t.pc = p.succ ∧ t.acc = s.acc ∧ t.out = s.out ∧ SameCells s t ∧ SameParams s t) ∧
  (∀ (s : State) (rest : List Answer), s.status.phase = .waitInput → s.channel = .malformed :: rest →
    ∃ t, step s = .next t ∧ t.channel = rest ∧ t.pc = s.pc ∧ t.acc = s.acc ∧ t.out = s.out ∧
      t.status = s.status ∧ SameCells s t ∧ t.otcTable = s.otcTable) ∧
  (∀ (s : State) (v : Word) (rest : List Answer), s.status.phase = .waitInput → s.channel = .word v :: rest →
    ∃ t, step s = .next t ∧ t.channel = rest ∧ t.acc = v ∧ t.pc = s.pc ∧ t.out = s.out ∧ SameCells s t ∧
      t.otcTable = s.otcTable ∧
      (s.pc.val ≤ 99 → t.status.phase = .running ∧ t.status.haltAddr = s.status.haltAddr ∧
        t.status.haltCause = s.status.haltCause) ∧
      (s.pc.val = 100 → t.HaltedWith 100 .noMore))

/-- The INP wait (R162): after any number of malformed answers, each taken by one input step that changes nothing else
and completes no invocation, the first word ends it and the outcome is returned; a channel that holds only malformed
answers leaves the machine waiting, however many steps are taken. That the answers are a finite list, and that the
steps past its end leave the state as it was, is the model's choice: log 3. The halt address 100 for an INP from cell
99 is the spec's decision D3: log 11. -/
def Obligations.InpRetriesUntilAWord : Prop :=
  (∀ (n : Nat) (s : State) (v : Word) (rest : List Answer), s.status.phase = .waitInput →
    s.channel = List.replicate n .malformed ++ .word v :: rest →
    (∀ k, k ≤ n → Host.Core.run Sys2Proof.core k s = .next { s with channel := s.channel.drop k } ∧
      ({ s with channel := s.channel.drop k } : State).stepOutcome = none) ∧
    ∃ t : State, Host.Core.run Sys2Proof.core (n + 1) s = .next t ∧ t.acc = v ∧ t.channel = rest ∧ t.pc = s.pc ∧
      t.out = s.out ∧ SameCells s t ∧
      t.stepOutcome = some (if s.pc = 100 then .halted 100 .noMore else .continues)) ∧
  (∀ (k : Nat) (s : State), s.status.phase = .waitInput → (∀ ans ∈ s.channel, ans = .malformed) →
    ∃ t : State, Host.Core.run Sys2Proof.core k s = .next t ∧ t.status = s.status ∧ t.pc = s.pc ∧ t.acc = s.acc ∧
      t.out = s.out ∧ SameCells s t)

/-- With no answer ready the machine waits with its state as it was. That the answers stand in `channel`, and what an
empty one means, is the model's: log 3. -/
def Obligations.WaitsWithoutAnAnswer : Prop :=
  ∀ s : State, s.status.phase = .waitInput → s.channel = [] → step s = .next s

/-- OUT appends the decimal text of `acc` and one space, and nothing else changes; the form of a negative value and
the space are the spec's decision D9 (log 10). -/
def Obligations.OutInstruction : Prop :=
  (∀ w : Word, w.val = 902 → decode w = .out) ∧
  (∀ s : State, ∃ t, exec .out s = .next t ∧ t.out = s.out ++ (dec s.acc ++ [' ']) ∧ OnlyOut s t) ∧
  (∀ (s : State) (p : Addr), RunsAt s p 902 → ∃ t, step s = .next t ∧ t.out = s.out ++ (dec s.acc ++ [' ']) ∧
    t.acc = s.acc ∧ SameCells s t ∧ SameParams s t ∧ FallsThrough s p t)

/-- `dec` writes the digits of the absolute value with no leading zero, "0" for zero, and '-' in front of a negative
value (the '-' is the spec's decision D9, log 10). -/
def Obligations.DecIsTheRawDecimal : Prop :=
  ∀ v : Word, ∃ ds : List Nat,
    dec v = (if v.val < 0 then ['-'] else []) ++ ds.map Nat.digitChar ∧
    ds ≠ [] ∧ (∀ d ∈ ds, d ≤ 9) ∧ (ds.head? = some 0 → ds = [0]) ∧
    Nat.ofDigits 10 ds.reverse = v.val.natAbs

/-- OTC (R165) appends the one character `OTC_MAP(acc)` for every `acc`, no separator, and nothing else changes; the
rule's three code points under the default map. -/
def Obligations.OtcInstruction : Prop :=
  (∀ w : Word, w.val = 922 → decode w = .otc) ∧
  (∀ s : State, ∃ t, exec .otc s = .next t ∧ t.out = s.out ++ [otcMap s.otcTable s.acc] ∧ OnlyOut s t) ∧
  (∀ (s : State) (p : Addr), RunsAt s p 922 → ∃ t, step s = .next t ∧
    t.out = s.out ++ [otcMap s.otcTable s.acc] ∧ t.acc = s.acc ∧ SameCells s t ∧ SameParams s t ∧
    FallsThrough s p t) ∧
  [otcMap [] ⟨0, by decide⟩, otcMap [] ⟨10, by decide⟩, otcMap [] ⟨72, by decide⟩].map Char.toNat = [0, 10, 72]

/-- `OTC_MAP`: in [0, 255] the code point is the value, whatever the machine's table; outside, the table's character
where it has one, else code point `v mod 256`, the spec's default (decision D10). The table is the model's: log 6. -/
def Obligations.OtcMapValues : Prop :=
  ∀ (table : List (Word × Char)) (v : Word),
    (0 ≤ v.val → v.val ≤ 255 → ((otcMap table v).toNat : Int) = v.val) ∧
    ((v.val < 0 ∨ 255 < v.val) → table.lookup v = none → ((otcMap table v).toNat : Int) = v.val % 256) ∧
    (∀ c, (v.val < 0 ∨ 255 < v.val) → table.lookup v = some c → otcMap table v = c)

/-! ### The engine -/

/-- A step from RUNNING at cell `p` is the decoded instruction's meaning in the state after the advance, followed by
the end-of-memory check, which halts with `NO_MORE` exactly where the engine is still RUNNING with `pc` above 99. -/
def Obligations.StepRunsTheDecodedInstruction : Prop :=
  ∀ (s : State) (p : Addr), s.status.phase = .running → s.pc = p.castSucc →
    ∃ t, exec (decode (s.mem.read p)) { s with pc := p.succ } = .next t ∧
      step s = .next (endCheck t) ∧
      (t.status.phase = .running → 99 < t.pc.val → (endCheck t).HaltedWith t.pc .noMore ∧ OnlyStatus t (endCheck t)) ∧
      ((t.status.phase ≠ .running ∨ t.pc.val ≤ 99) → endCheck t = t)

/-- In HALTED there is no step, and the two ports of the host leave the state as it was (R90 and R95; the spec's
decision D6, log 4). -/
def Obligations.HaltedIsFinal : Prop :=
  ∀ s : State, s.status.phase = .halted →
    step s = .refused .haltedIsFinal ∧ stepReq s = .next s ∧ ∀ ans, inAns ans s = s

/-- A state that is RUNNING with `pc = 100` stops with a fault of the model (log 5); no other state faults. -/
def Obligations.OnlyPc100Faults : Prop :=
  ∀ (s : State) (f : Fault), step s = .fault f ↔
    (f = .fetchOutsideMemory ∧ s.status.phase = .running ∧ s.pc.val = 100)

/-- The ports `step_req`, `in_req` and `in_ans` against the step: a request is a cycle step in RUNNING and ignored
outside it; an answer is accepted only in WAIT_INPUT, where it is the input step on that answer. -/
def Obligations.PortsFollowThePhase : Prop :=
  (∀ s : State, s.status.phase = .running → stepReq s = step s ∧ s.inReq = false ∧ ∀ ans, inAns ans s = s) ∧
  (∀ s : State, s.status.phase = .waitInput → stepReq s = .next s ∧ s.inReq = true) ∧
  (∀ (s : State) (ans : Answer) (rest : List Answer), s.status.phase = .waitInput → s.channel = ans :: rest →
    step s = .next (inAns ans { s with channel := rest })) ∧
  (∀ s : State, s.status.phase = .halted → s.inReq = false)

/-- Port `outcome` after a step from a sound state: *continue* in RUNNING, *halted* with the `pc` and the recorded
cause in HALTED, none yet while INP waits. -/
def Obligations.OutcomeReportsTheStep : Prop :=
  ∀ s t : State, s.Sound → step s = .next t →
    (t.status.phase = .running → t.stepOutcome = some .continues) ∧
    (t.status.phase = .waitInput → t.stepOutcome = none) ∧
    (t.status.phase = .halted → ∃ c, t.status.haltCause = some c ∧ t.stepOutcome = some (.halted t.pc c))

/-- Port `view`: all 100 cells in order, and the registers as they are (R96). -/
def Obligations.ViewShowsTheState : Prop :=
  ∀ s : State, s.view.pc = s.pc ∧ s.view.acc = s.acc ∧ s.view.out = s.out ∧ s.view.cells.length = 100 ∧
    ∀ a : Addr, s.view.cells[a.val]? = some (s.mem.read a)

/-! ### Invariants -/

/-- The reset state and every loaded state are sound. -/
def Obligations.LoadedStatesAreSound : Prop :=
  State.reset.Sound ∧ ∀ (image : List Word) (s : State), load image = some s → s.Sound

/-- Every step keeps soundness: the canonical memory, `pc` in [0, 99] in RUNNING (R92), the fetched 901 behind a
wait, and a halt record that fits the fetched word. -/
def Obligations.StepKeepsSoundness : Prop :=
  ∀ s t : State, s.Sound → step s = .next t → t.Sound

/-- A sound state that has not halted always has a next state, and that one is sound: no run faults, and a run is
refused only a step after its halt. -/
def Obligations.SoundRunsNeverFault : Prop :=
  ∀ (n : Nat) (s : State), s.Sound →
    (∃ t : State, Host.Core.run Sys2Proof.core n s = .next t ∧ t.Sound) ∨
    (Host.Core.run Sys2Proof.core n s = .refused .haltedIsFinal ∧
      ∃ (k : Nat) (t : State), k < n ∧ Host.Core.run Sys2Proof.core k s = .next t ∧ t.Sound ∧
        t.status.phase = .halted)

/-- Two canonical memories that read alike in every cell are the same data (the form is the model's, log 2). -/
def Obligations.CanonicalMemoriesAreEqualData : Prop :=
  ∀ m m' : Memory, m.wf = true → m'.wf = true → (∀ a : Addr, m.read a = m'.read a) → m = m'

/-! ### Whole-machine rules -/

/-- A memory write replaces one cell and changes no other, and its only caller is STA (R42): a step changes no cell
but the one that a fetched STA stores to, which takes `acc`. -/
def Obligations.OnlyStaWritesMemory : Prop :=
  (∀ (m : Memory) (a : Addr) (v : Word),
    (m.write a v).read a = v ∧ ∀ b : Addr, b ≠ a → (m.write a v).read b = m.read b) ∧
  (∀ (i : Instr) (s t : State), exec i s = .next t →
    (storeAddr i = none → SameCells s t) ∧
    (∀ a, storeAddr i = some a → t.mem.read a = s.acc ∧ ∀ b : Addr, b ≠ a → t.mem.read b = s.mem.read b)) ∧
  (∀ (s t : State) (b : Addr), step s = .next t → t.mem.read b ≠ s.mem.read b →
    s.status.phase = .running ∧ ∃ p : Addr, s.pc = p.castSucc ∧ decode (s.mem.read p) = .sta b ∧
      t.mem.read b = s.acc)

/-- After a cycle step from cell `p` the program counter is `p + 1`, or the operand of a branch that was taken: only the
advance and the branches write it. -/
def Obligations.PcIsAdvancedOrBranched : Prop :=
  ∀ (s t : State) (p : Addr), s.status.phase = .running → s.pc = p.castSucc → step s = .next t →
    t.pc = p.succ ∨
    ∃ a : Addr, t.pc.val = a.val ∧
      (decode (s.mem.read p) = .bra a ∨ (decode (s.mem.read p) = .brz a ∧ s.acc.val = 0) ∨
       (decode (s.mem.read p) = .brp a ∧ 0 ≤ s.acc.val))

/-- `acc` changes only in a step of ADD, SUB or LDA, or in the input step that takes a word. -/
def Obligations.AccIsWrittenOnlyByAddSubLdaInp : Prop :=
  ∀ s t : State, step s = .next t → t.acc ≠ s.acc →
    (s.status.phase = .running ∧ ∃ p a : Addr, s.pc = p.castSucc ∧
      (decode (s.mem.read p) = .add a ∨ decode (s.mem.read p) = .sub a ∨ decode (s.mem.read p) = .lda a)) ∨
    (s.status.phase = .waitInput ∧ ∃ rest, s.channel = .word t.acc :: rest)

/-- The output record is only appended to, by OUT and OTC alone, and the port `out_chars` carries what was appended. -/
def Obligations.OutputIsAppendOnly : Prop :=
  ∀ s t : State, step s = .next t →
    t.out = s.out ++ outChars s t ∧
    (outChars s t ≠ [] → s.status.phase = .running ∧ ∃ p : Addr, s.pc = p.castSucc ∧
      (decode (s.mem.read p) = .out ∨ decode (s.mem.read p) = .otc))

/-- No step reads the output record: from two states that differ only there, a step appends the same characters and
agrees in everything else. -/
def Obligations.OutputIsNeverRead : Prop :=
  ∀ (s t : State) (o : List Char), step s = .next t →
    step { s with out := o } = .next { t with out := o ++ outChars s t }

/-- A cycle step reads no answer of the channel, so only the input step depends on it (R93). -/
def Obligations.CycleStepReadsNoAnswer : Prop :=
  ∀ (s t : State) (c : List Answer), s.status.phase = .running → step s = .next t →
    t.channel = s.channel ∧ step { s with channel := c } = .next { t with channel := c }

/-- The machine's `OTC_MAP` is never written, and only a step of OTC depends on it. -/
def Obligations.OnlyOtcReadsItsMap : Prop :=
  ∀ (s t : State) (table : List (Word × Char)), step s = .next t →
    t.otcTable = s.otcTable ∧
    ((∀ p : Addr, s.status.phase = .running → s.pc = p.castSucc → decode (s.mem.read p) ≠ .otc) →
      step { s with otcTable := table } = .next { t with otcTable := table })

/-- A word stored into the next cell is the instruction that the very next step runs. -/
def Obligations.StoredWordIsFetchedNext : Prop :=
  ∀ (s : State) (p a : Addr), RunsAt s p (300 + a.val) → a.val = p.val + 1 →
    ∃ t u, step s = .next t ∧ RunsAt t a s.acc.val ∧
      exec (decode s.acc) { t with pc := a.succ } = .next u ∧ step t = .next (endCheck u)

/-- The engine's phases: what a step can do from WAIT_INPUT, and that it leaves `pc`, memory and output alone there. -/
def Obligations.WaitStepTransitions : Prop :=
  ∀ s t : State, s.status.phase = .waitInput → step s = .next t →
    t.pc = s.pc ∧ t.out = s.out ∧ SameCells s t ∧
    ((t.status = s.status ∧ t.acc = s.acc) ∨
     (s.pc.val ≤ 99 ∧ t.status.phase = .running) ∨
     (s.pc.val = 100 ∧ t.HaltedWith 100 .noMore))
end

