-- ==== Sys2Proof/Laws/Decode.lean ====
section
/-!
SUPPORT. Small lemmas of the decoder and the encoder.
-/

namespace Sys2Proof

@[simp] theorem Word.ofDigits_val (o : Fin 10) (a : Addr) :
    (Word.ofDigits o a).val = 100 * (o.val : Int) + (a.val : Int) := rfl

theorem opcodeDigit_ofDigits (o : Fin 10) (a : Addr) : opcodeDigit (Word.ofDigits o a) = o.val := by
  simp only [opcodeDigit, Word.ofDigits_val]; omega

theorem operandOf_ofDigits (o : Fin 10) (a : Addr) : operandOf (Word.ofDigits o a) = a := by
  apply Fin.ext; simp only [operandOf, Word.ofDigits_val]; omega

theorem decode_neg {w : Word} (h : w.val < 0) : decode w = .negInstr w := by simp [decode, h]

theorem decode_ofDigits (o : Fin 10) (a : Addr) :
    decode (Word.ofDigits o a) = decodeDigits o.val a := by
  unfold decode
  rw [if_neg (by simp only [Word.ofDigits_val]; omega), opcodeDigit_ofDigits, operandOf_ofDigits]

/-- The decoding of a word from its value (R64). -/
theorem decode_of_val (w : Word) (o : Fin 10) (a : Addr) (h : w.val = 100 * (o.val : Int) + (a.val : Int)) :
    decode w = decodeDigits o.val a := by
  rw [← decode_ofDigits, ← (Subtype.ext h : w = Word.ofDigits o a)]

/-- Every word that is not negative is written by its two fields (R62). -/
theorem Word.eq_ofDigits {w : Word} (h : 0 ≤ w.val) :
    ∃ (o : Fin 10) (a : Addr), w = Word.ofDigits o a := by
  have hw := w.property
  refine ⟨⟨w.val.toNat / 100, by omega⟩, ⟨w.val.toNat % 100, by omega⟩, Subtype.ext ?_⟩
  simp only [Word.ofDigits_val]; omega

end Sys2Proof
end

