-- ==== Sys2Proof/Laws/Memory.lean ====
section
/-!
SUPPORT. The laws of the memory: a read after a write, and that every memory operation keeps the canonical form.
-/

namespace Sys2Proof.Machine

theorem Memory.read_absent (m : Memory) (a : Addr) (h : ∀ c ∈ m, c.1 ≠ a) :
    m.read a = unlistedWord := by
  induction m with
  | nil => rfl
  | cons c rest ih =>
    obtain ⟨k, v⟩ := c
    simp only [Memory.read]
    rw [if_neg (h (k, v) (by simp))]
    exact ih fun c hc => h c (by simp [hc])

theorem Memory.read_cons (k : Addr) (v : Word) (m : Memory) (a : Addr) (h : ∀ c ∈ m, c.1 ≠ k) :
    (Memory.cons k v m).read a = if a = k then v else m.read a := by
  unfold Memory.cons
  by_cases hv : v = unlistedWord <;> by_cases ha : a = k
  · subst ha; simp [hv, Memory.read_absent m a h]
  · simp [hv, ha]
  · simp [hv, ha, Memory.read]
  · simp [hv, ha, Memory.read, Ne.symm ha]

theorem Memory.read_insert (a : Addr) (v : Word) (m : Memory) (b : Addr) (h : ∀ c ∈ m, c.1 ≠ a) :
    (Memory.insert a v m).read b = if b = a then v else m.read b := by
  induction m with
  | nil => exact Memory.read_cons a v [] b h
  | cons c rest ih =>
    obtain ⟨k, x⟩ := c
    have hk : k ≠ a := h (k, x) (by simp)
    simp only [Memory.insert]
    split
    · exact Memory.read_cons a v _ b h
    · simp only [Memory.read, ih fun c hc => h c (by simp [hc])]
      by_cases hb : k = b
      · subst hb; simp [hk]
      · simp [hb]

theorem Memory.read_filter_ne (m : Memory) (a b : Addr) (hb : b ≠ a) :
    Memory.read (m.filter fun c => c.1 ≠ a) b = m.read b := by
  induction m with
  | nil => rfl
  | cons c rest ih =>
    obtain ⟨k, x⟩ := c
    by_cases hk : k = a
    · subst hk; simpa [Memory.read, Ne.symm hb] using ih
    · simp only [List.filter_cons, hk, ne_eq, not_false_eq_true, decide_true, if_true, Memory.read]
      rw [ih]

/-- A read after a write (spec/20_memory.md R41, R42), for every list, canonical or not. -/
theorem Memory.read_write (m : Memory) (a b : Addr) (v : Word) :
    (m.write a v).read b = if b = a then v else m.read b := by
  unfold Memory.write
  rw [Memory.read_insert a v _ b (by simp)]
  split
  · rfl
  · next hb => exact Memory.read_filter_ne m a b hb

@[simp] theorem Memory.read_write_same (m : Memory) (a : Addr) (v : Word) :
    (m.write a v).read a = v := by simp [Memory.read_write]

theorem Memory.read_write_other (m : Memory) {a b : Addr} (v : Word) (h : b ≠ a) :
    (m.write a v).read b = m.read b := by simp [Memory.read_write, h]

theorem Memory.wf_cons_iff (k : Addr) (x : Word) (rest : Memory) :
    Memory.wf ((k, x) :: rest) = true ↔
      x ≠ unlistedWord ∧ (∀ c ∈ rest, k < c.1) ∧ Memory.wf rest = true := by
  simp [Memory.wf, and_assoc]

theorem Memory.wf_cons (k : Addr) (v : Word) (m : Memory) (hk : ∀ c ∈ m, k < c.1)
    (h : Memory.wf m = true) : Memory.wf (Memory.cons k v m) = true := by
  unfold Memory.cons
  split
  · exact h
  · next hv => exact (Memory.wf_cons_iff k v m).2 ⟨hv, hk, h⟩

theorem Memory.lt_of_mem_cons {k b : Addr} {v : Word} {m : Memory} (hb : b < k)
    (hm : ∀ c ∈ m, b < c.1) : ∀ c ∈ Memory.cons k v m, b < c.1 := by
  unfold Memory.cons
  split
  · exact hm
  · simpa [hb] using hm

theorem Memory.lt_of_mem_insert {a b : Addr} {v : Word} {m : Memory} (hb : b < a)
    (hm : ∀ c ∈ m, b < c.1) : ∀ c ∈ Memory.insert a v m, b < c.1 := by
  induction m with
  | nil => exact Memory.lt_of_mem_cons hb hm
  | cons c rest ih =>
    obtain ⟨k, x⟩ := c
    simp only [Memory.insert]
    split
    · exact Memory.lt_of_mem_cons hb hm
    · intro c hc
      rcases List.mem_cons.1 hc with rfl | hc
      · exact hm _ (by simp)
      · exact ih (fun c hc => hm c (by simp [hc])) c hc

theorem Memory.wf_insert (a : Addr) (v : Word) (m : Memory) (ha : ∀ c ∈ m, c.1 ≠ a)
    (h : Memory.wf m = true) : Memory.wf (Memory.insert a v m) = true := by
  induction m with
  | nil => exact Memory.wf_cons a v [] (by simp) rfl
  | cons c rest ih =>
    obtain ⟨k, x⟩ := c
    obtain ⟨hx, hk, hrest⟩ := (Memory.wf_cons_iff k x rest).1 h
    have hne : k ≠ a := ha (k, x) (by simp)
    simp only [Memory.insert]
    split
    · next hlt =>
      refine Memory.wf_cons a v _ (fun c hc => ?_) h
      rcases List.mem_cons.1 hc with rfl | hc
      · exact hlt
      · exact lt_trans hlt (hk c hc)
    · next hlt =>
      have hka : k < a := lt_of_le_of_ne (not_lt.1 hlt) hne
      exact (Memory.wf_cons_iff k x _).2
        ⟨hx, Memory.lt_of_mem_insert hka hk, ih (fun c hc => ha c (by simp [hc])) hrest⟩

theorem Memory.wf_filter (m : Memory) (f : Addr × Word → Bool) (h : Memory.wf m = true) :
    Memory.wf (m.filter f) = true := by
  induction m with
  | nil => rfl
  | cons c rest ih =>
    obtain ⟨k, x⟩ := c
    obtain ⟨hx, hk, hrest⟩ := (Memory.wf_cons_iff k x rest).1 h
    simp only [List.filter_cons]
    split
    · exact (Memory.wf_cons_iff k x _).2
        ⟨hx, fun c hc => hk c (List.mem_filter.1 hc).1, ih hrest⟩
    · exact ih hrest

/-- A write keeps the canonical form. -/
theorem Memory.wf_write (m : Memory) (a : Addr) (v : Word) (h : Memory.wf m = true) :
    Memory.wf (m.write a v) = true :=
  Memory.wf_insert a v _ (by simp) (Memory.wf_filter m _ h)

theorem Memory.ofImage_ge (n : Nat) (image : List Word) :
    ∀ c ∈ Memory.ofImage n image, n ≤ c.1.val := by
  induction image generalizing n with
  | nil => simp [Memory.ofImage]
  | cons v rest ih =>
    intro c hc
    simp only [Memory.ofImage] at hc
    split at hc
    · unfold Memory.cons at hc
      split at hc
      · exact Nat.le_of_succ_le (ih (n + 1) c hc)
      · rcases List.mem_cons.1 hc with rfl | hc
        · exact Nat.le_refl n
        · exact Nat.le_of_succ_le (ih (n + 1) c hc)
    · simp at hc

/-- A loaded image is in canonical form. -/
theorem Memory.wf_ofImage (n : Nat) (image : List Word) :
    Memory.wf (Memory.ofImage n image) = true := by
  induction image generalizing n with
  | nil => rfl
  | cons v rest ih =>
    simp only [Memory.ofImage]
    split
    · exact Memory.wf_cons _ v _
        (fun c hc => Fin.lt_def.2 (Memory.ofImage_ge (n + 1) rest c hc)) (ih (n + 1))
    · rfl

theorem reset_mem_wf : State.reset.mem.wf = true := rfl

end Sys2Proof.Machine
end

