-- ==== Sys2Proof/Laws/State.lean ====
section
/-!
SUPPORT. One lemma per field per update of the state, true by `rfl`, so that no proof unfolds a record update.
-/

namespace Sys2Proof.Machine

@[simp] theorem State.advance_pc (s : State) (p : Addr) : (s.advance p).pc = p.succ := rfl
@[simp] theorem State.advance_acc (s : State) (p : Addr) : (s.advance p).acc = s.acc := rfl
@[simp] theorem State.advance_mem (s : State) (p : Addr) : (s.advance p).mem = s.mem := rfl
@[simp] theorem State.advance_out (s : State) (p : Addr) : (s.advance p).out = s.out := rfl
@[simp] theorem State.advance_status (s : State) (p : Addr) : (s.advance p).status = s.status := rfl
@[simp] theorem State.advance_channel (s : State) (p : Addr) : (s.advance p).channel = s.channel := rfl
@[simp] theorem State.advance_otcTable (s : State) (p : Addr) : (s.advance p).otcTable = s.otcTable := rfl

@[simp] theorem State.jump_pc (s : State) (a : Addr) : (s.jump a).pc = a.castSucc := rfl
@[simp] theorem State.jump_acc (s : State) (a : Addr) : (s.jump a).acc = s.acc := rfl
@[simp] theorem State.jump_mem (s : State) (a : Addr) : (s.jump a).mem = s.mem := rfl
@[simp] theorem State.jump_out (s : State) (a : Addr) : (s.jump a).out = s.out := rfl
@[simp] theorem State.jump_status (s : State) (a : Addr) : (s.jump a).status = s.status := rfl
@[simp] theorem State.jump_channel (s : State) (a : Addr) : (s.jump a).channel = s.channel := rfl
@[simp] theorem State.jump_otcTable (s : State) (a : Addr) : (s.jump a).otcTable = s.otcTable := rfl

@[simp] theorem State.setAcc_pc (s : State) (v : Word) : (s.setAcc v).pc = s.pc := rfl
@[simp] theorem State.setAcc_acc (s : State) (v : Word) : (s.setAcc v).acc = v := rfl
@[simp] theorem State.setAcc_mem (s : State) (v : Word) : (s.setAcc v).mem = s.mem := rfl
@[simp] theorem State.setAcc_out (s : State) (v : Word) : (s.setAcc v).out = s.out := rfl
@[simp] theorem State.setAcc_status (s : State) (v : Word) : (s.setAcc v).status = s.status := rfl
@[simp] theorem State.setAcc_channel (s : State) (v : Word) : (s.setAcc v).channel = s.channel := rfl
@[simp] theorem State.setAcc_otcTable (s : State) (v : Word) : (s.setAcc v).otcTable = s.otcTable := rfl

@[simp] theorem State.store_pc (s : State) (a : Addr) (v : Word) : (s.store a v).pc = s.pc := rfl
@[simp] theorem State.store_acc (s : State) (a : Addr) (v : Word) : (s.store a v).acc = s.acc := rfl
@[simp] theorem State.store_mem (s : State) (a : Addr) (v : Word) : (s.store a v).mem = s.mem.write a v := rfl
@[simp] theorem State.store_out (s : State) (a : Addr) (v : Word) : (s.store a v).out = s.out := rfl
@[simp] theorem State.store_status (s : State) (a : Addr) (v : Word) : (s.store a v).status = s.status := rfl
@[simp] theorem State.store_channel (s : State) (a : Addr) (v : Word) : (s.store a v).channel = s.channel := rfl
@[simp] theorem State.store_otcTable (s : State) (a : Addr) (v : Word) : (s.store a v).otcTable = s.otcTable := rfl

@[simp] theorem State.append_pc (s : State) (t : List Char) : (s.append t).pc = s.pc := rfl
@[simp] theorem State.append_acc (s : State) (t : List Char) : (s.append t).acc = s.acc := rfl
@[simp] theorem State.append_mem (s : State) (t : List Char) : (s.append t).mem = s.mem := rfl
@[simp] theorem State.append_out (s : State) (t : List Char) : (s.append t).out = s.out ++ t := rfl
@[simp] theorem State.append_status (s : State) (t : List Char) : (s.append t).status = s.status := rfl
@[simp] theorem State.append_channel (s : State) (t : List Char) : (s.append t).channel = s.channel := rfl
@[simp] theorem State.append_otcTable (s : State) (t : List Char) : (s.append t).otcTable = s.otcTable := rfl

@[simp] theorem State.setPhase_pc (s : State) (ph : Phase) : (s.setPhase ph).pc = s.pc := rfl
@[simp] theorem State.setPhase_acc (s : State) (ph : Phase) : (s.setPhase ph).acc = s.acc := rfl
@[simp] theorem State.setPhase_mem (s : State) (ph : Phase) : (s.setPhase ph).mem = s.mem := rfl
@[simp] theorem State.setPhase_out (s : State) (ph : Phase) : (s.setPhase ph).out = s.out := rfl
@[simp] theorem State.setPhase_status (s : State) (ph : Phase) : (s.setPhase ph).status = { s.status with phase := ph } := rfl
@[simp] theorem State.setPhase_channel (s : State) (ph : Phase) : (s.setPhase ph).channel = s.channel := rfl
@[simp] theorem State.setPhase_otcTable (s : State) (ph : Phase) : (s.setPhase ph).otcTable = s.otcTable := rfl

@[simp] theorem raiseHalt_pc (c : HaltCause) (s : State) : (raiseHalt c s).pc = s.pc := rfl
@[simp] theorem raiseHalt_acc (c : HaltCause) (s : State) : (raiseHalt c s).acc = s.acc := rfl
@[simp] theorem raiseHalt_mem (c : HaltCause) (s : State) : (raiseHalt c s).mem = s.mem := rfl
@[simp] theorem raiseHalt_out (c : HaltCause) (s : State) : (raiseHalt c s).out = s.out := rfl
@[simp] theorem raiseHalt_status (c : HaltCause) (s : State) : (raiseHalt c s).status = ⟨.halted, some s.pc, some c⟩ := rfl
@[simp] theorem raiseHalt_channel (c : HaltCause) (s : State) : (raiseHalt c s).channel = s.channel := rfl
@[simp] theorem raiseHalt_otcTable (c : HaltCause) (s : State) : (raiseHalt c s).otcTable = s.otcTable := rfl

@[simp] theorem RunStatus.runningStatus_phase : RunStatus.runningStatus.phase = .running := rfl
@[simp] theorem RunStatus.runningStatus_haltAddr : RunStatus.runningStatus.haltAddr = none := rfl
@[simp] theorem RunStatus.runningStatus_haltCause : RunStatus.runningStatus.haltCause = none := rfl

end Sys2Proof.Machine
end

