-- ==== Sys2Proof/Laws/Ops.lean ====
section
/-!
SUPPORT. What each shared operation can do, said once.
-/

namespace Sys2Proof.Machine

theorem sat_val (x : Int) : (sat x).val = max (-999) (min 999 x) := rfl

theorem aluAdd_val (x y : Word) : (aluAdd x y).val = max (-999) (min 999 (x.val + y.val)) := rfl

theorem aluSub_val (x y : Word) : (aluSub x y).val = max (-999) (min 999 (x.val - y.val)) := rfl

theorem fetchAddr_eq_some_iff (pc : PcVal) (p : Addr) : fetchAddr pc = some p ↔ pc = p.castSucc := by
  unfold fetchAddr
  constructor
  · intro h
    split at h
    · simp only [Option.some.injEq] at h; subst h; rfl
    · simp at h
  · rintro rfl
    simp [p.isLt]

@[simp] theorem fetchAddr_castSucc (p : Addr) : fetchAddr p.castSucc = some p :=
  (fetchAddr_eq_some_iff _ _).2 rfl

theorem fetchAddr_eq_none_iff (pc : PcVal) : fetchAddr pc = none ↔ pc = 100 := by
  unfold fetchAddr
  constructor
  · intro h
    split at h
    · simp at h
    · next hlt => exact Fin.ext (by have := pc.isLt; simp; omega)
  · rintro rfl; rfl

/-- The end-of-memory check either halts with `NO_MORE` at address 100 or changes nothing (R87). -/
theorem endCheck_cases (s : State) :
    (s.status.phase = .running ∧ s.pc = 100 ∧ endCheck s = raiseHalt .noMore s) ∨
    (¬ (s.status.phase = .running ∧ s.pc = 100) ∧ endCheck s = s) := by
  unfold endCheck
  have hpc : 99 < s.pc.val ↔ s.pc = 100 := by
    rw [Fin.ext_iff]
    have := s.pc.isLt
    constructor
    · intro h; simp; omega
    · intro h; rw [h]; decide
  split
  · next h => exact .inl ⟨h.1, hpc.1 h.2, rfl⟩
  · next h => exact .inr ⟨fun h' => h ⟨h'.1, hpc.2 h'.2⟩, rfl⟩

@[simp] theorem endCheck_pc (s : State) : (endCheck s).pc = s.pc := by
  unfold endCheck; split <;> rfl
@[simp] theorem endCheck_acc (s : State) : (endCheck s).acc = s.acc := by
  unfold endCheck; split <;> rfl
@[simp] theorem endCheck_mem (s : State) : (endCheck s).mem = s.mem := by
  unfold endCheck; split <;> rfl
@[simp] theorem endCheck_out (s : State) : (endCheck s).out = s.out := by
  unfold endCheck; split <;> rfl
@[simp] theorem endCheck_channel (s : State) : (endCheck s).channel = s.channel := by
  unfold endCheck; split <;> rfl
@[simp] theorem endCheck_otcTable (s : State) : (endCheck s).otcTable = s.otcTable := by
  unfold endCheck; split <;> rfl

/-- A halt is not checked again. -/
@[simp] theorem endCheck_raiseHalt (c : HaltCause) (s : State) : endCheck (raiseHalt c s) = raiseHalt c s := by
  simp [endCheck]

/-- The check never fires after a taken branch. -/
@[simp] theorem endCheck_jump (s : State) (a : Addr) : endCheck (s.jump a) = s.jump a := by
  rcases endCheck_cases (s.jump a) with ⟨_, h, _⟩ | ⟨_, h⟩
  · have := a.isLt
    simp [Fin.ext_iff] at h; omega
  · exact h

/-- Everything `exec` can do: it always answers a next state, and this is the state for each instruction. -/
theorem exec_eq (i : Instr) (s : State) :
    exec i s = .next (match i with
      | .hlt _ => raiseHalt .haltCmd s
      | .add a => s.setAcc (aluAdd s.acc (s.mem.read a))
      | .sub a => s.setAcc (aluSub s.acc (s.mem.read a))
      | .sta a => s.store a s.acc
      | .lda a => s.setAcc (s.mem.read a)
      | .bra a => s.jump a
      | .brz a => if s.accIsZero then s.jump a else s
      | .brp a => if s.accIsNonneg then s.jump a else s
      | .inp => s.setPhase .waitInput
      | .out => s.append (outToken s.acc)
      | .otc => s.append [otcMap s.otcTable s.acc]
      | .badOpcode4 _ => raiseHalt .badInstr s
      | .badOpcode9 _ => raiseHalt .badInstr s
      | .negInstr _ => raiseHalt .negInstr s) := by
  cases i <;> rfl

/-- The shapes of the state that an instruction leaves. -/
theorem exec_cases {i : Instr} {s t : State} (h : exec i s = .next t) :
    (∃ c, t = raiseHalt c s) ∨ (∃ v, t = s.setAcc v) ∨ (∃ a, i = .sta a ∧ t = s.store a s.acc) ∨
    (∃ a, t = s.jump a) ∨ t = s ∨ (∃ chars, t = s.append chars) ∨
    (i = .inp ∧ t = s.setPhase .waitInput) := by
  rw [exec_eq] at h
  injection h with h
  cases i <;> simp only at h
  case hlt => exact .inl ⟨_, h.symm⟩
  case add => exact .inr (.inl ⟨_, h.symm⟩)
  case sub => exact .inr (.inl ⟨_, h.symm⟩)
  case sta a => exact .inr (.inr (.inl ⟨a, rfl, h.symm⟩))
  case lda => exact .inr (.inl ⟨_, h.symm⟩)
  case bra => exact .inr (.inr (.inr (.inl ⟨_, h.symm⟩)))
  case brz =>
    split at h
    · exact .inr (.inr (.inr (.inl ⟨_, h.symm⟩)))
    · exact .inr (.inr (.inr (.inr (.inl h.symm))))
  case brp =>
    split at h
    · exact .inr (.inr (.inr (.inl ⟨_, h.symm⟩)))
    · exact .inr (.inr (.inr (.inr (.inl h.symm))))
  case inp => exact .inr (.inr (.inr (.inr (.inr (.inr ⟨rfl, h.symm⟩)))))
  case out => exact .inr (.inr (.inr (.inr (.inr (.inl ⟨_, h.symm⟩)))))
  case otc => exact .inr (.inr (.inr (.inr (.inr (.inl ⟨_, h.symm⟩)))))
  case badOpcode4 => exact .inl ⟨_, h.symm⟩
  case badOpcode9 => exact .inl ⟨_, h.symm⟩
  case negInstr => exact .inl ⟨_, h.symm⟩

end Sys2Proof.Machine
end

