-- ==== Sys2Proof/Laws/PerInstr.lean ====
section
/-!
SUPPORT. Statements about every instruction as syntax, one lemma per constructor.
-/

namespace Sys2Proof.Laws.EncodingRow

/-- The word of a well-formed instruction lies in the word range of its row of the opcode table (R64). -/
def Statement (i : Instr) : Prop :=
  i.wellFormed = true → i.wordRange.1 ≤ (encode i).val ∧ (encode i).val ≤ i.wordRange.2

theorem hlt (a : Addr) : Statement (.hlt a) := fun _ => by
  simp only [Instr.wordRange, encode, Word.ofDigits_val]; omega

theorem add (a : Addr) : Statement (.add a) := fun _ => by
  simp only [Instr.wordRange, encode, Word.ofDigits_val]; omega

theorem sub (a : Addr) : Statement (.sub a) := fun _ => by
  simp only [Instr.wordRange, encode, Word.ofDigits_val]; omega

theorem sta (a : Addr) : Statement (.sta a) := fun _ => by
  simp only [Instr.wordRange, encode, Word.ofDigits_val]; omega

theorem lda (a : Addr) : Statement (.lda a) := fun _ => by
  simp only [Instr.wordRange, encode, Word.ofDigits_val]; omega

theorem bra (a : Addr) : Statement (.bra a) := fun _ => by
  simp only [Instr.wordRange, encode, Word.ofDigits_val]; omega

theorem brz (a : Addr) : Statement (.brz a) := fun _ => by
  simp only [Instr.wordRange, encode, Word.ofDigits_val]; omega

theorem brp (a : Addr) : Statement (.brp a) := fun _ => by
  simp only [Instr.wordRange, encode, Word.ofDigits_val]; omega

theorem inp : Statement .inp := fun _ => by decide

theorem out : Statement .out := fun _ => by decide

theorem otc : Statement .otc := fun _ => by decide

theorem badOpcode4 (a : Addr) : Statement (.badOpcode4 a) := fun _ => by
  simp only [Instr.wordRange, encode, Word.ofDigits_val]; omega

theorem badOpcode9 (a : Addr) : Statement (.badOpcode9 a) := fun _ => by
  simp only [Instr.wordRange, encode, Word.ofDigits_val]; omega

theorem negInstr (w : Word) : Statement (.negInstr w) := fun h => by
  have hw := w.property
  simp only [Instr.wellFormed, decide_eq_true_eq] at h
  simp only [Instr.wordRange, encode]; omega

end Sys2Proof.Laws.EncodingRow
end

