-- ==== Sys2Proof/Laws/Step.lean ====
section
/-!
SUPPORT. What a step can do, said once; later proofs cite these and do not unfold `step`.
-/

namespace Sys2Proof.Machine

theorem step_halted {s : State} (h : s.status.phase = .halted) : step s = .refused .haltedIsFinal := by
  simp [step, engineStep, h]

theorem step_waiting {s : State} (h : s.status.phase = .waitInput) : step s = .next (awaitAnswer s) := by
  simp [step, engineStep, h]

theorem step_running {s t : State} {p : Addr} (h : s.status.phase = .running) (hp : s.pc = p.castSucc)
    (ht : exec (decode (s.mem.read p)) (s.advance p) = .next t) : step s = .next (endCheck t) := by
  simp [step, engineStep, h, cycleStep, hp, ht, finishCycle]

theorem step_outside {s : State} (h : s.status.phase = .running) (hp : s.pc = 100) :
    step s = .fault .fetchOutsideMemory := by
  simp [step, engineStep, h, cycleStep, (fetchAddr_eq_none_iff _).2 hp]

/-- The cycle step on a word of known value. -/
theorem step_running_val {s t : State} {p : Addr} (o : Fin 10) (a : Addr) (h : s.status.phase = .running)
    (hp : s.pc = p.castSucc) (hw : (s.mem.read p).val = 100 * (o.val : Int) + (a.val : Int))
    (ht : exec (decodeDigits o.val a) (s.advance p) = .next t) : step s = .next (endCheck t) :=
  step_running h hp (by rw [decode_of_val _ o a hw]; exact ht)

theorem awaitAnswer_nil {s : State} (hc : s.channel = []) : awaitAnswer s = s := by simp [awaitAnswer, hc]

theorem step_answer {s : State} {ans : Answer} {rest : List Answer} (h : s.status.phase = .waitInput)
    (hc : s.channel = ans :: rest) : step s = .next (inputStep ans { s with channel := rest }) := by
  rw [step_waiting h]; simp [awaitAnswer, hc]

/-- A run takes its steps from the front. -/
theorem run_succ (k : Nat) {s t : State} (h : step s = .next t) :
    Host.Core.run Sys2Proof.core (k + 1) s = Host.Core.run Sys2Proof.core k t := by
  have h' : Sys2Proof.core.step s = .next t := h
  simp only [Host.Core.run, h']

/-- Where a step answers a next state, one of these holds: a cycle step from RUNNING, a wait with no answer ready, or
an input step. -/
theorem step_cases {s s' : State} (h : step s = .next s') :
    (s.status.phase = .running ∧ ∃ p t, s.pc = p.castSucc ∧
      exec (decode (s.mem.read p)) (s.advance p) = .next t ∧ s' = endCheck t) ∨
    (s.status.phase = .waitInput ∧ s.channel = [] ∧ s' = s) ∨
    (s.status.phase = .waitInput ∧ ∃ ans rest, s.channel = ans :: rest ∧
      s' = inputStep ans { s with channel := rest }) := by
  unfold step engineStep at h
  split at h
  · next hph =>
    refine .inl ⟨hph, ?_⟩
    unfold cycleStep at h
    split at h
    · cases h
    · next p hp =>
      rw [exec_eq] at h
      injection h with h
      exact ⟨p, _, (fetchAddr_eq_some_iff _ _).1 hp, exec_eq _ _, h.symm⟩
  · next hph =>
    injection h with h
    unfold awaitAnswer at h
    split at h
    · next hc => exact .inr (.inl ⟨hph, hc, h.symm⟩)
    · next ans rest hc => exact .inr (.inr ⟨hph, ans, rest, hc, h.symm⟩)
  · cases h

end Sys2Proof.Machine
end

