-- ==== Sys2Proof/Tests/Slice0.lean ====
section
/-!
SUPPORT. Tests. Expected results come from the vectors of spec/95_test_vectors.md, named in each docstring, or from the
digits of the encodings in spec/30_encoding.md; witnesses of the statements' hypotheses stand at the end.
-/

namespace Sys2Proof.Machine

/-- A RUNNING state with `pc`, `acc` and some cells, everything else as after reset. -/
def testState (pc : PcVal) (acc : Int) (cells : List (Addr × Int)) : State :=
  { State.reset with
    pc := pc, acc := sat acc, mem := cells.foldl (fun m c => Memory.write m c.1 (sat c.2)) [] }

/-- `testState` in WAIT_INPUT with answers ready. -/
def testWaiting (pc : PcVal) (acc : Int) (cells : List (Addr × Int)) (answers : List Answer) : State :=
  { testState pc acc cells with status := ⟨.waitInput, none, none⟩, channel := answers }

/-- What one reads of the next state. -/
def after {α : Type} (f : State → α) (s : State) : Option α :=
  match step s with
  | .next t => some (f t)
  | .fault _ => none
  | .refused _ => none

/-- `pc`, `acc` and the run status. -/
def core3 (t : State) : Nat × Int × RunStatus := (t.pc.val, t.acc.val, t.status)

/-- The status of a halt. -/
def haltAt (a : PcVal) (c : HaltCause) : RunStatus := ⟨.halted, some a, some c⟩

/-! ### Well-formedness refuses -/

theorem test_wf_refuses_selectors :
    [Instr.badOpcode9 1, .badOpcode9 2, .badOpcode9 22].map Instr.wellFormed = [false, false, false] := by decide

theorem test_wf_refuses_nonnegative :
    [Instr.negInstr (sat 0), .negInstr (sat 999)].map Instr.wellFormed = [false, false] := by decide

theorem test_wf_accepts :
    [Instr.badOpcode9 0, .badOpcode9 99, .negInstr (sat (-1)), .hlt 42].map Instr.wellFormed =
      [true, true, true, true] := by decide

/-! ### Decoding, words written from the digits of R64 -/

theorem test_decode_hlt : decode (sat 042) = .hlt 42 := by decide
theorem test_decode_add : decode (sat 110) = .add 10 := by decide
theorem test_decode_sub : decode (sat 211) = .sub 11 := by decide
theorem test_decode_sta : decode (sat 310) = .sta 10 := by decide
theorem test_decode_bad4 : decode (sat 417) = .badOpcode4 17 := by decide
theorem test_decode_lda : decode (sat 520) = .lda 20 := by decide
theorem test_decode_bra : decode (sat 699) = .bra 99 := by decide
theorem test_decode_brz : decode (sat 712) = .brz 12 := by decide
theorem test_decode_brp : decode (sat 820) = .brp 20 := by decide
theorem test_decode_inp : decode (sat 901) = .inp := by decide
theorem test_decode_out : decode (sat 902) = .out := by decide
theorem test_decode_otc : decode (sat 922) = .otc := by decide
theorem test_decode_bad9 : decode (sat 921) = .badOpcode9 21 := by decide
theorem test_decode_neg : decode (sat (-999)) = .negInstr (sat (-999)) := by decide

theorem test_encode_words :
    [Instr.hlt 99, .add 0, .sub 50, .sta 42, .badOpcode4 0, .lda 7, .bra 0, .brz 99, .brp 1, .inp, .out, .otc,
      .badOpcode9 23, .negInstr (sat (-1))].map (fun i => (encode i).val) =
    [99, 100, 250, 342, 400, 507, 600, 799, 801, 901, 902, 922, 923, -1] := by decide

/-- Sixteen bits, two's complement (log 7): 901, -1, -999; 1000 and -1000 are no words. -/
theorem test_decodeTableWord :
    [901, 65535, 64537, 1000, 64536].map (decodeTableWord 16) =
      [some .inp, some (.negInstr (sat (-1))), some (.negInstr (sat (-999))), none, none] := by decide

/-! ### One step -/

/-- A4. -/
theorem test_add_saturates : after core3 (testState 0 999 [(0, 110), (10, 1)]) =
    some (1, 999, RunStatus.runningStatus) := by decide

/-- E1. -/
theorem test_add_last_cell : after core3 (testState 99 5 [(99, 110), (10, 7)]) =
    some (100, 12, haltAt 100 .noMore) := by decide

/-- A15. -/
theorem test_sub_saturates_above : after core3 (testState 0 999 [(0, 210), (10, -999)]) =
    some (1, 999, RunStatus.runningStatus) := by decide

/-- A20. -/
theorem test_sub_own_cell : after core3 (testState 5 0 [(5, 205)]) =
    some (6, -205, RunStatus.runningStatus) := by decide

/-- M1. -/
theorem test_sta_stores : after (fun t => ((t.mem.read 10).val, core3 t)) (testState 0 (-42) [(0, 310), (10, 3)]) =
    some (-42, 1, -42, RunStatus.runningStatus) := by decide

/-- E3. -/
theorem test_sta_last_cell : after (fun t => ((t.mem.read 10).val, core3 t)) (testState 99 5 [(99, 310), (10, 7)]) =
    some (5, 100, 5, haltAt 100 .noMore) := by decide

/-- M3. -/
theorem test_lda_negative : after core3 (testState 0 1 [(0, 520), (20, -999)]) =
    some (1, -999, RunStatus.runningStatus) := by decide

/-- M4. -/
theorem test_lda_own_cell : after core3 (testState 0 1 [(0, 500)]) =
    some (1, 500, RunStatus.runningStatus) := by decide

/-- B1. -/
theorem test_bra : after core3 (testState 3 (-7) [(3, 612)]) =
    some (12, -7, RunStatus.runningStatus) := by decide

/-- B13. -/
theorem test_bra_last_cell : after core3 (testState 99 0 [(99, 610)]) =
    some (10, 0, RunStatus.runningStatus) := by decide

/-- B14. -/
theorem test_brz_taken_last_cell : after core3 (testState 99 0 [(99, 710)]) =
    some (10, 0, RunStatus.runningStatus) := by decide

/-- B15. -/
theorem test_brz_not_taken_last_cell : after core3 (testState 99 5 [(99, 710)]) =
    some (100, 5, haltAt 100 .noMore) := by decide

/-- B7. -/
theorem test_brp_zero : after core3 (testState 3 0 [(3, 820)]) =
    some (20, 0, RunStatus.runningStatus) := by decide

/-- B9. -/
theorem test_brp_negative : after core3 (testState 3 (-1) [(3, 820)]) =
    some (4, -1, RunStatus.runningStatus) := by decide

/-- H2. -/
theorem test_hlt : after core3 (testState 7 0 [(7, 42)]) = some (8, 0, haltAt 8 .haltCmd) := by decide

/-- H4. -/
theorem test_hlt_last_cell : after core3 (testState 99 0 []) = some (100, 0, haltAt 100 .haltCmd) := by decide

/-- F1. -/
theorem test_neg : after core3 (testState 0 12 [(0, -1)]) = some (1, 12, haltAt 1 .negInstr) := by decide

/-- F2. -/
theorem test_neg_last_cell : after core3 (testState 99 0 [(99, -500)]) =
    some (100, 0, haltAt 100 .negInstr) := by decide

/-- F3. -/
theorem test_bad4 : after core3 (testState 0 3 [(0, 400)]) = some (1, 3, haltAt 1 .badInstr) := by decide

/-- F5. -/
theorem test_bad9_last_cell : after core3 (testState 99 3 [(99, 999)]) =
    some (100, 3, haltAt 100 .badInstr) := by decide

/-- I4, its fetch; I2, its first answer. -/
theorem test_inp_waits_and_retries :
    after core3 (testState 0 3 [(0, 901)]) = some (1, 3, ⟨.waitInput, none, none⟩) ∧
    after (fun t => (t.channel, core3 t)) (testWaiting 1 3 [(0, 901)] [.malformed, .word (sat (-7))]) =
      some ([.word (sat (-7))], 1, 3, ⟨.waitInput, none, none⟩) := by decide

/-- I2, its last answer; E6. -/
theorem test_inp_word :
    after core3 (testWaiting 1 3 [(0, 901)] [.word (sat (-7))]) = some (1, -7, RunStatus.runningStatus) ∧
    after core3 (testWaiting 100 5 [(99, 901)] [.word (sat 9)]) = some (100, 9, haltAt 100 .noMore) := by decide

/-- I8. -/
theorem test_out_negative : after State.out (testState 0 (-42) [(0, 902)]) =
    some ['-', '4', '2', ' '] := by decide

/-- I6, I7, I9 and E5. -/
theorem test_out_tokens : [0, 999, 7, 5].map (fun i => outToken (sat i)) =
    [['0', ' '], ['9', '9', '9', ' '], ['7', ' '], ['5', ' ']] := by decide

/-- I10 and I14. -/
theorem test_otc : [65, -1].map (fun i => after State.out (testState 0 i [(0, 922)])) =
    [some ['A'], some [Char.ofNat 255]] := by decide

/-- I11, I12 and I13. -/
theorem test_otc_map : [10, 0, 321].map (fun i => (otcMap [] (sat i)).toNat) = [10, 0, 65] := by decide

/-- X1: no step in HALTED, and the port leaves the state. -/
theorem test_halted : after core3 { testState 1 0 [] with status := haltAt 1 .haltCmd } = none := by decide

/-- L1-5: the all-zero program halts at address 1. -/
theorem test_reset_step : after (fun t => (t.out, core3 t)) State.reset =
    some ([], 1, 0, haltAt 1 .haltCmd) := by decide

/-- L1-1 and L1-2. -/
theorem test_load_cells : (load [sat 901, sat 0, sat (-5)]).map (fun s => [0, 1, 2, 3].map fun a => (s.mem.read a).val) =
    some [901, 0, -5, 0] := by decide

theorem test_load_too_long : load (List.replicate 101 Word.zero) = none := by decide

/-- `withFetchWord` runs its word first after reset: SUB 50 of cell 50. -/
theorem test_withFetchWord : after core3 (State.reset.withFetchWord 16 250) =
    some (1, 0, RunStatus.runningStatus) := by decide

/-- `withFetchWord` from a halted state. -/
theorem test_withFetchWord_halted :
    after core3 (({ testState 100 0 [] with status := haltAt 100 .noMore } : State).withFetchWord 16 65535) =
      some (1, 0, haltAt 1 .negInstr) := by decide

/-! ### Witnesses: states and operands that meet the statements' hypotheses, at the ends of the ranges -/

theorem witness_DecodeEncodeRoundTrip :
    (Instr.badOpcode9 21).wellFormed = true ∧ (Instr.negInstr (sat (-1))).wellFormed = true := by decide

theorem witness_WordSplits : 0 ≤ (sat 0).val ∧ 0 ≤ (sat 999).val := by decide

/-- The first and the last word of each row. -/
theorem witness_DecodeFollowsOpcodeMap :
    [-999, -1, 0, 99, 100, 199, 200, 299, 300, 399, 400, 499, 500, 599, 600, 699, 700, 799, 800, 899, 900, 901, 902, 903,
      921, 922, 923, 999].map (fun i => decode (sat i)) =
    [.negInstr (sat (-999)), .negInstr (sat (-1)), .hlt 0, .hlt 99, .add 0, .add 99, .sub 0, .sub 99, .sta 0, .sta 99,
      .badOpcode4 0, .badOpcode4 99, .lda 0, .lda 99, .bra 0, .bra 99, .brz 0, .brz 99, .brp 0, .brp 99, .badOpcode9 0,
      .inp, .out, .badOpcode9 3, .badOpcode9 21, .otc, .badOpcode9 23, .badOpcode9 99] := by decide

theorem witness_FetchWord : ((901 : Nat) : Int) = (if 0 ≤ (sat 901).val then (sat 901).val else (sat 901).val + 65536) ∧
    ((64537 : Nat) : Int) = (if 0 ≤ (sat (-999)).val then (sat (-999)).val else (sat (-999)).val + 65536) := by decide

theorem witness_Load : (List.replicate 100 Word.zero).length ≤ 100 ∧ 100 < (List.replicate 101 Word.zero).length := by
  decide

theorem witness_LoadTokens :
    100 < (List.replicate 101 Token.other).length ∧ Token.other ∈ [Token.integer 5, .other] ∧
    Token.integer 1000 ∈ [Token.integer 5, .integer 1000] ∧ Token.integer (-1000) ∈ [Token.integer (-1000)] := by decide

theorem witness_Saturation :
    999 < (sat 999).val + (sat 1).val ∧ (sat (-999)).val + (sat (-1)).val < -999 ∧ (sat 998).val + (sat 1).val ≤ 999 ∧
    999 < (sat 999).val - (sat (-1)).val ∧ (sat (-999)).val - (sat 1).val < -999 ∧
    -999 ≤ (sat (-998)).val - (sat 1).val := by decide

theorem witness_AddInstruction :
    RunsAt (testState 0 5 [(0, 100)]) 0 (100 + ((0 : Addr).val : Int)) ∧
    RunsAt (testState 99 5 [(99, 199)]) 99 (100 + ((99 : Addr).val : Int)) := by unfold RunsAt; decide

theorem witness_SubInstruction :
    RunsAt (testState 0 5 [(0, 200)]) 0 (200 + ((0 : Addr).val : Int)) ∧
    RunsAt (testState 99 5 [(99, 299)]) 99 (200 + ((99 : Addr).val : Int)) := by unfold RunsAt; decide

theorem witness_StaInstruction :
    RunsAt (testState 0 5 [(0, 300)]) 0 (300 + ((0 : Addr).val : Int)) ∧
    RunsAt (testState 99 5 [(99, 399)]) 99 (300 + ((99 : Addr).val : Int)) := by unfold RunsAt; decide

theorem witness_LdaInstruction :
    RunsAt (testState 0 5 [(0, 500)]) 0 (500 + ((0 : Addr).val : Int)) ∧
    RunsAt (testState 99 5 [(99, 599)]) 99 (500 + ((99 : Addr).val : Int)) := by unfold RunsAt; decide

theorem witness_BranchesWriteOnlyPc :
    (testState 3 0 []).acc.val = 0 ∧ (testState 3 1 []).acc.val ≠ 0 ∧ 0 ≤ (testState 3 0 []).acc.val ∧
    (testState 3 (-1) []).acc.val < 0 ∧ (sat 699).val = 600 + ((99 : Addr).val : Int) ∧
    (sat 700).val = 700 + ((0 : Addr).val : Int) ∧ (sat 899).val = 800 + ((99 : Addr).val : Int) := by decide

theorem witness_BraStep :
    RunsAt (testState 99 5 [(99, 699)]) 99 (600 + ((99 : Addr).val : Int)) ∧
    RunsAt (testState 0 5 [(0, 610)]) 0 (600 + ((10 : Addr).val : Int)) := by unfold RunsAt; decide

theorem witness_BrzStep :
    RunsAt (testState 99 0 [(99, 710)]) 99 (700 + ((10 : Addr).val : Int)) ∧
    RunsAt (testState 99 (-1) [(99, 710)]) 99 (700 + ((10 : Addr).val : Int)) ∧
    (testState 99 0 [(99, 710)]).acc.val = 0 ∧ (testState 99 (-1) [(99, 710)]).acc.val ≠ 0 := by unfold RunsAt; decide

theorem witness_BrpStep :
    RunsAt (testState 99 0 [(99, 810)]) 99 (800 + ((10 : Addr).val : Int)) ∧
    RunsAt (testState 99 (-1) [(99, 810)]) 99 (800 + ((10 : Addr).val : Int)) ∧
    0 ≤ (testState 99 0 [(99, 810)]).acc.val ∧ (testState 99 (-1) [(99, 810)]).acc.val < 0 := by unfold RunsAt; decide

theorem witness_HltInstruction :
    RunsAt (testState 0 5 []) 0 ((0 : Addr).val : Int) ∧ RunsAt (testState 99 5 [(99, 99)]) 99 ((99 : Addr).val : Int) := by
  unfold RunsAt; decide

theorem witness_NegativeWordHalts :
    RunsAt (testState 0 5 [(0, -1)]) 0 (-1) ∧ RunsAt (testState 99 5 [(99, -999)]) 99 (-999) := by unfold RunsAt; decide

theorem witness_BadWordHalts :
    RunsAt (testState 0 5 [(0, 400)]) 0 (sat 400).val ∧ IsBadWord (sat 400) ∧ IsBadWord (sat 499) ∧
    RunsAt (testState 99 5 [(99, 923)]) 99 (sat 923).val ∧ IsBadWord (sat 923) ∧ IsBadWord (sat 900) ∧
    IsBadWord (sat 999) := by unfold RunsAt IsBadWord; decide

/-- The state after the execute part of the ADD at cell 99, RUNNING with `pc = 100`, and its step's halt. -/
theorem witness_NoMoreAfterTheLastCell :
    ∃ t u, (testState 99 5 [(99, 110)]).status.phase = .running ∧ (testState 99 5 [(99, 110)]).pc = 99 ∧
      exec (decode ((testState 99 5 [(99, 110)]).mem.read 99)) ((testState 99 5 [(99, 110)]).advance 99) = .next t ∧
      t.status.phase = .running ∧ t.pc = 100 ∧ step (testState 99 5 [(99, 110)]) = .next u ∧
      u.HaltedWith 100 .noMore ∧
      (testWaiting 100 5 [(99, 901)] [.word (sat 9)]).pc = 100 :=
  ⟨_, _, rfl, rfl, rfl, rfl, rfl, rfl, ⟨rfl, rfl, rfl⟩, rfl⟩

theorem witness_RunningStepEnds :
    RunsAt (testState 99 5 [(99, 902)]) 99 (sat 902).val ∧ RunsAt (testState 0 5 [(0, -1)]) 0 (sat (-1)).val := by
  unfold RunsAt; decide

theorem witness_InpInstruction :
    RunsAt (testState 0 3 [(0, 901)]) 0 901 ∧ RunsAt (testState 99 3 [(99, 901)]) 99 901 ∧
    (testWaiting 1 3 [(0, 901)] [.malformed]).status.phase = .waitInput ∧
    (testWaiting 1 3 [(0, 901)] [.malformed]).channel = .malformed :: [] ∧
    (testWaiting 100 3 [(99, 901)] [.word (sat 9)]).channel = .word (sat 9) :: [] ∧
    (testWaiting 100 3 [(99, 901)] [.word (sat 9)]).pc.val = 100 ∧
    (testWaiting 99 3 [(98, 901)] [.word (sat 9)]).pc.val ≤ 99 := by unfold RunsAt; decide

theorem witness_InpRetries :
    (testWaiting 1 3 [(0, 901)] [.malformed, .malformed, .word (sat (-7))]).channel =
      List.replicate 2 .malformed ++ .word (sat (-7)) :: [] ∧
    (∀ ans ∈ (testWaiting 1 3 [(0, 901)] [.malformed, .malformed]).channel, ans = .malformed) := by decide

theorem witness_WaitsWithoutAnAnswer :
    (testWaiting 1 3 [(0, 901)] []).status.phase = .waitInput ∧ (testWaiting 1 3 [(0, 901)] []).channel = [] := by decide

theorem witness_OutInstruction : RunsAt (testState 0 3 [(0, 902)]) 0 902 ∧ RunsAt (testState 99 3 [(99, 902)]) 99 902 := by
  unfold RunsAt; decide

theorem witness_OtcInstruction : RunsAt (testState 0 3 [(0, 922)]) 0 922 ∧ RunsAt (testState 99 3 [(99, 922)]) 99 922 := by
  unfold RunsAt; decide

theorem witness_OtcMapValues :
    0 ≤ (sat 255).val ∧ (sat 255).val ≤ 255 ∧ 255 < (sat 256).val ∧ (sat (-1)).val < 0 ∧
    List.lookup (sat 256) [(sat 256, 'x')] = some 'x' ∧ List.lookup (sat (-1)) [(sat 256, 'x')] = none := by decide

theorem witness_StepRuns :
    (testState 99 3 [(99, 922)]).status.phase = .running ∧ (testState 99 3 [(99, 922)]).pc = (99 : Addr).castSucc := by
  decide

theorem witness_HaltedIsFinal : ({ testState 1 0 [] with status := haltAt 1 .haltCmd } : State).status.phase = .halted :=
  rfl

/-- The faulting state of `OnlyPc100Faults`; no run reaches it (R92). -/
theorem witness_OnlyPc100Faults : step (testState 100 0 []) = .fault .fetchOutsideMemory := rfl

theorem witness_PortsFollowThePhase :
    (testState 0 0 []).status.phase = .running ∧ (testWaiting 1 3 [(0, 901)] [.malformed]).status.phase = .waitInput := by
  decide

/-- Sound states in each phase, each with a next state but the halted one: a RUNNING state at cell 99, a waiting one and
a halted one. -/
theorem witness_Sound_running : (testState 99 5 [(99, 110)]).Sound ∧ ∃ t, step (testState 99 5 [(99, 110)]) = .next t :=
  ⟨⟨by decide, fun _ => by decide, fun _ => ⟨rfl, rfl⟩, fun h => absurd h (by decide), fun h => absurd h (by decide)⟩,
    _, rfl⟩

theorem witness_Sound_waiting : (testWaiting 100 5 [(99, 901)] [.word (sat 9)]).Sound ∧
    ∃ t, step (testWaiting 100 5 [(99, 901)] [.word (sat 9)]) = .next t :=
  ⟨⟨by decide, fun h => absurd h (by decide), fun _ => ⟨rfl, rfl⟩, fun _ => ⟨99, by decide⟩,
    fun h => absurd h (by decide)⟩, _, rfl⟩

theorem witness_Sound_halted : ({ testState 1 0 [] with status := haltAt 1 .haltCmd } : State).Sound :=
  ⟨by decide, fun h => absurd h (by decide), fun h => absurd rfl h, fun h => absurd h (by decide),
    fun _ => ⟨0, .haltCmd, rfl, rfl, rfl, by unfold CauseFits; decide⟩⟩

theorem witness_CanonicalMemories : Memory.wf [(0, sat 5), (99, sat (-1))] = true := by decide

theorem witness_LoadedStates : ∃ s, load [sat 901, sat 0, sat (-5)] = some s := ⟨_, rfl⟩

/-- A STA that changes its cell. -/
theorem witness_OnlyStaWritesMemory :
    ∃ t, step (testState 0 5 [(0, 310)]) = .next t ∧ t.mem.read 10 ≠ (testState 0 5 [(0, 310)]).mem.read 10 ∧
      storeAddr (.sta 10) = some 10 ∧ storeAddr (.lda 10) = none := ⟨_, rfl, by decide, rfl, rfl⟩

theorem witness_AccWriters :
    ∃ t u, step (testState 0 5 [(0, 110), (10, 7)]) = .next t ∧ t.acc ≠ (testState 0 5 [(0, 110), (10, 7)]).acc ∧
      step (testWaiting 1 3 [(0, 901)] [.word (sat (-7))]) = .next u ∧
      u.acc ≠ (testWaiting 1 3 [(0, 901)] [.word (sat (-7))]).acc := ⟨_, _, rfl, by decide, rfl, by decide⟩

theorem witness_OutputIsAppendOnly :
    ∃ t, step (testState 0 5 [(0, 902)]) = .next t ∧ outChars (testState 0 5 [(0, 902)]) t ≠ [] :=
  ⟨_, rfl, by decide⟩

/-- A step whose fetched word is not OTC. -/
theorem witness_OnlyOtcReadsItsMap : ∃ t, step (testState 0 5 [(0, 902)]) = .next t ∧
    ∀ p : Addr, (testState 0 5 [(0, 902)]).pc = p.castSucc →
      decode ((testState 0 5 [(0, 902)]).mem.read p) ≠ .otc := ⟨_, rfl, by decide⟩

theorem witness_PcIsAdvancedOrBranched :
    ∃ t u, step (testState 98 5 [(98, 600)]) = .next t ∧ t.pc = 0 ∧ step (testState 98 5 [(98, 700)]) = .next u ∧
      u.pc = 99 := ⟨_, _, rfl, rfl, rfl, rfl⟩

theorem witness_StoredWordIsFetchedNext :
    RunsAt (testState 98 5 [(98, 399)]) 98 (300 + ((99 : Addr).val : Int)) ∧ (99 : Addr).val = (98 : Addr).val + 1 := by
  unfold RunsAt; decide

theorem witness_WaitStep :
    (testWaiting 100 3 [(99, 901)] []).status.phase = .waitInput ∧
    ∃ t, step (testWaiting 100 3 [(99, 901)] []) = .next t := ⟨rfl, _, rfl⟩

theorem witness_CycleStepReadsNoAnswer :
    (testState 0 5 [(0, 902)]).status.phase = .running ∧ ∃ t, step (testState 0 5 [(0, 902)]) = .next t := ⟨rfl, _, rfl⟩

end Sys2Proof.Machine
end

section
/-! The port `load` (spec/40_cycle_engine.md R95, spec/70_reset_and_hazards.md R201): what the cells of a loaded image
read as, and the obligation on the loaded state. -/

namespace Sys2Proof.Machine

/-- Cell `a` of an image laid out from cell `n` on holds the image's word at `a - n`; a cell past the image's end is
unlisted. -/
theorem Memory.read_ofImage (n : Nat) (image : List Word) (a : Addr) (hn : n ≤ a.val) :
    (Memory.ofImage n image).read a = image.getD (a.val - n) unlistedWord := by
  induction image generalizing n with
  | nil => rfl
  | cons v rest ih =>
    have hn100 : n < 100 := Nat.lt_of_le_of_lt hn a.isLt
    have hfresh : ∀ c ∈ Memory.ofImage (n + 1) rest, c.1 ≠ ⟨n, hn100⟩ := fun c hc =>
      Fin.ne_of_val_ne (Nat.ne_of_gt (Memory.ofImage_ge (n + 1) rest c hc))
    simp only [Memory.ofImage, dif_pos hn100, Memory.read_cons _ _ _ _ hfresh, Fin.ext_iff]
    obtain heq | hlt := hn.eq_or_lt
    · simp [← heq]
    · have hsub : a.val - n = a.val - (n + 1) + 1 := by omega
      rw [if_neg (Nat.ne_of_gt hlt), ih (n + 1) hlt, hsub, List.getD_cons_succ]

/-- What `load` constructs from an image that fits in memory (R95, R201). -/
theorem load_of_length_le {image : List Word} (h : image.length ≤ 100) :
    load image = some { State.reset with mem := Memory.ofImage 0 image } := if_pos h

/-- The capacity error of R202: an image that does not fit constructs nothing. -/
theorem load_of_length_gt {image : List Word} (h : 100 < image.length) : load image = none :=
  if_neg (Nat.not_le.2 h)

/-- Settles O7: every field but the memory is reset's, and the cells read as the image laid out from cell 0 on. -/
theorem loadConstructsTheResetState : Obligations.LoadConstructsTheResetState := by
  intro image
  refine ⟨fun hfits => ?_, load_of_length_gt⟩
  exact ⟨_, load_of_length_le hfits, rfl, rfl, rfl, rfl, rfl, rfl,
    fun a => Memory.read_ofImage 0 image a (Nat.zero_le _)⟩

end Sys2Proof.Machine
end

section
/-! The writers of memory (spec/20_memory.md R42): what each transition leaves in the memory, and the obligation that
only STA changes a cell. -/

namespace Sys2Proof.Machine

/-- STA is the only form that stores, and it stores at its operand. -/
theorem storeAddr_eq_some_iff (i : Instr) (a : Addr) : storeAddr i = some a ↔ i = .sta a := by
  cases i <;> simp [storeAddr, effectiveAddr]

/-- The memory after an instruction: one write of `acc` at the address it stores to, or the memory as it was. -/
theorem exec_mem {i : Instr} {s t : State} (h : exec i s = .next t) :
    t.mem = (storeAddr i).elim s.mem (fun a => s.mem.write a s.acc) := by
  rw [exec_eq] at h
  injection h with h
  subst h
  cases i
  case brz => dsimp only; split <;> rfl
  case brp => dsimp only; split <;> rfl
  all_goals rfl

/-- An instruction changes a cell only where it stores. -/
theorem exec_storeAddr_of_read_ne {i : Instr} {s t : State} {b : Addr} (h : exec i s = .next t)
    (hb : t.mem.read b ≠ s.mem.read b) : storeAddr i = some b := by
  rw [exec_mem h] at hb
  cases hi : storeAddr i with
  | none => simp [hi] at hb
  | some a =>
    have hab : b = a := by
      by_contra hne
      exact hb (by rw [hi]; exact Memory.read_write_other _ _ hne)
    rw [hab]

/-- The input step writes no cell (R161). -/
@[simp] theorem inputStep_mem (ans : Answer) (s : State) : (inputStep ans s).mem = s.mem := by
  cases ans <;> simp [inputStep]

/-- A step that changes the memory is a cycle step, and its memory is the one its instruction leaves. -/
theorem step_exec_of_mem_ne {s s' : State} (h : step s = .next s') (hm : s'.mem ≠ s.mem) :
    s.status.phase = .running ∧ ∃ p t, s.pc = p.castSucc ∧
      exec (decode (s.mem.read p)) (s.advance p) = .next t ∧ s'.mem = t.mem := by
  obtain ⟨hrun, p, t, hp, ht, rfl⟩ | ⟨-, -, rfl⟩ | ⟨-, ans, rest, -, rfl⟩ := step_cases h
  · exact ⟨hrun, p, t, hp, ht, endCheck_mem t⟩
  · exact absurd rfl hm
  · exact absurd (inputStep_mem ..) hm

/-- Settles O43: the read-after-write law, `exec_mem` by the store address, and, for a step, that a changed cell shows a
cycle step whose instruction stores there, so STA. -/
theorem onlyStaWritesMemory : Obligations.OnlyStaWritesMemory := by
  refine ⟨fun m a v => ⟨Memory.read_write_same m a v, fun b hb => Memory.read_write_other m v hb⟩,
    fun i s t h => ⟨fun hi b => ?_, fun a hi => ?_⟩, fun s s' b h hb => ?_⟩
  · rw [exec_mem h, hi]
    rfl
  · rw [exec_mem h, hi]
    exact ⟨Memory.read_write_same .., fun b hb => Memory.read_write_other _ _ hb⟩
  · obtain ⟨hrun, p, t, hp, ht, hmem⟩ := step_exec_of_mem_ne h fun hm => hb (by rw [hm])
    rw [hmem] at hb ⊢
    have hstore : storeAddr (decode (s.mem.read p)) = some b := exec_storeAddr_of_read_ne ht hb
    refine ⟨hrun, p, hp, (storeAddr_eq_some_iff _ _).1 hstore, ?_⟩
    rw [exec_mem ht, hstore]
    exact Memory.read_write_same ..

end Sys2Proof.Machine
end

section
/-! The two fields of a word (spec/30_encoding.md R62). -/

namespace Sys2Proof

/-- Settles O4: a word that is not negative is written by an opcode digit and an operand, and these are the two fields
that the decoder reads back; with the digits in their ranges, quotient and remainder by 100 are arithmetic. -/
theorem wordSplitsIntoOpcodeAndOperand : Obligations.WordSplitsIntoOpcodeAndOperand := by
  intro w hw
  obtain ⟨o, a, rfl⟩ := Word.eq_ofDigits hw
  rw [opcodeDigit_ofDigits, operandOf_ofDigits, Word.ofDigits_val]
  refine ⟨?range, ?quotient, ?remainder, rfl⟩
  case range => omega
  case quotient => omega
  case remainder => omega

end Sys2Proof
end

section
/-! Saturating arithmetic (spec/42_arithmetic.md R110 to R112): the clamp's three cases, what an instruction that writes
only `acc` does in a step, and the obligations on the ALU, ADD and SUB. -/

namespace Sys2Proof.Machine

/-! ### The clamp -/

theorem sat_val_of_gt {x : Int} (h : 999 < x) : (sat x).val = 999 := by
  rw [sat_val, min_eq_left h.le]
  rfl

theorem sat_val_of_lt {x : Int} (h : x < -999) : (sat x).val = -999 := by
  rw [sat_val]
  exact max_eq_left (min_le_of_right_le h.le)

theorem sat_val_of_mem_range {x : Int} (hlo : -999 ≤ x) (hhi : x ≤ 999) : (sat x).val = x := by
  rw [sat_val, min_eq_right hhi, max_eq_right hlo]

/-- Settles O11: the ALU's two operations are `sat` of the exact result, so each clause is one case of the clamp. -/
theorem saturationClampsBothBounds : Obligations.SaturationClampsBothBounds := by
  refine ⟨sat_val, fun x y => ?exactRange, fun x y => ?clamp⟩
  case exactRange =>
    have hx := x.property
    have hy := y.property
    omega
  case clamp =>
    exact ⟨sat_val_of_gt, sat_val_of_lt, sat_val_of_mem_range, sat_val_of_gt, sat_val_of_lt, sat_val_of_mem_range⟩

/-! ### Instructions that write only `acc` -/

theorem onlyAcc_setAcc (s : State) (v : Word) : OnlyAcc s (s.setAcc v) :=
  ⟨rfl, rfl, rfl, fun _ => rfl, rfl, rfl⟩

/-- An execute part that leaves the advanced `pc` and the RUNNING status falls through the end-of-memory check: the check
fires from cell 99, whose advance is 100, and from no other (R84, R87). -/
theorem fallsThrough_endCheck {s t : State} {p : Addr} (hrun : s.status.phase = .running) (hpc : t.pc = p.succ)
    (hst : t.status = s.status) : FallsThrough s p (endCheck t) := by
  have hlast : t.pc = 100 ↔ p.val = 99 := by
    rw [hpc, Fin.ext_iff, Fin.val_succ]
    exact Nat.succ_inj
  obtain ⟨-, hend, hhalt⟩ | ⟨hno, hsame⟩ := endCheck_cases t
  · rw [hhalt]
    exact ⟨hpc, fun hp => absurd (hlast.1 hend) hp.ne, fun _ => ⟨rfl, congrArg some hend, rfl⟩⟩
  · rw [hsame]
    exact ⟨hpc, fun _ => hst, fun hp => absurd ⟨hst ▸ hrun, hlast.2 hp⟩ hno⟩

/-- A step from cell `p` on a word whose meaning is `acc <- v`: `acc` takes `v`, the advance and the end-of-memory check
are made, and nothing else changes. -/
theorem step_setAcc {s : State} {p : Addr} {w : Int} {v : Word} (o : Fin 10) (a : Addr) (h : RunsAt s p w)
    (hw : w = 100 * (o.val : Int) + (a.val : Int))
    (hexec : exec (decodeDigits o.val a) (s.advance p) = .next ((s.advance p).setAcc v)) :
    ∃ t, step s = .next t ∧ t.acc = v ∧ t.out = s.out ∧ SameCells s t ∧ SameParams s t ∧ FallsThrough s p t := by
  obtain ⟨hrun, hpc, hval⟩ := h
  exact ⟨_, step_running_val o a hrun hpc (hval.trans hw) hexec, endCheck_acc _, endCheck_out _,
    fun b => congrArg (Memory.read · b) (endCheck_mem _), ⟨endCheck_channel _, endCheck_otcTable _⟩,
    fallsThrough_endCheck hrun rfl rfl⟩

/-! ### ADD and SUB -/

theorem exec_add (a : Addr) (s : State) : exec (.add a) s = .next (s.setAcc (aluAdd s.acc (s.mem.read a))) :=
  exec_eq (.add a) s

theorem exec_sub (a : Addr) (s : State) : exec (.sub a) s = .next (s.setAcc (aluSub s.acc (s.mem.read a))) :=
  exec_eq (.sub a) s

/-- Settles O12: opcode digit 1 is ADD, whose meaning is `acc <- aluAdd acc mem[a]`; the advance before it changes neither
operand. -/
theorem addInstruction : Obligations.AddInstruction := by
  intro a
  refine ⟨fun w hw => decode_of_val w 1 a hw, fun s => ?_, fun s p h => ?_⟩
  · exact ⟨_, exec_add a s, aluAdd_val .., onlyAcc_setAcc ..⟩
  · obtain ⟨t, hstep, hacc, hframe⟩ := step_setAcc 1 a h rfl (exec_add a (s.advance p))
    exact ⟨t, hstep, (congrArg Subtype.val hacc).trans (aluAdd_val ..), hframe⟩

/-- Settles O13: opcode digit 2 is SUB, whose meaning is `acc <- aluSub acc mem[a]`; the advance before it changes neither
operand. -/
theorem subInstruction : Obligations.SubInstruction := by
  intro a
  refine ⟨fun w hw => decode_of_val w 2 a hw, fun s => ?_, fun s p h => ?_⟩
  · exact ⟨_, exec_sub a s, aluSub_val .., onlyAcc_setAcc ..⟩
  · obtain ⟨t, hstep, hacc, hframe⟩ := step_setAcc 2 a h rfl (exec_sub a (s.advance p))
    exact ⟨t, hstep, (congrArg Subtype.val hacc).trans (aluSub_val ..), hframe⟩

end Sys2Proof.Machine
end

section
/-! Data movement (spec/43_data_movement.md R130, R131): the meanings of STA and LDA, and the obligations on them. -/

namespace Sys2Proof.Machine

theorem exec_sta (a : Addr) (s : State) : exec (.sta a) s = .next (s.store a s.acc) := exec_eq (.sta a) s

theorem exec_lda (a : Addr) (s : State) : exec (.lda a) s = .next (s.setAcc (s.mem.read a)) := exec_eq (.lda a) s

/-- Settles O14: opcode digit 3 is STA, whose meaning is one write of `acc`, so the cells read by the read-after-write
laws. The advance before it and the end-of-memory check after it touch neither memory nor `acc`, also where the cell
stored to is the one the STA was fetched from. -/
theorem staInstruction : Obligations.StaInstruction := by
  intro a
  have hsame (s : State) : (s.mem.write a s.acc).read a = s.acc := Memory.read_write_same ..
  have hother (s : State) : ∀ b, b ≠ a → (s.mem.write a s.acc).read b = s.mem.read b :=
    fun _ hb => Memory.read_write_other _ _ hb
  refine ⟨fun w hw => decode_of_val w 3 a hw, rfl, fun s => ?exec, fun s p h => ?step⟩
  case exec => exact ⟨_, exec_sta a s, hsame s, hother s, rfl, rfl, rfl, rfl, rfl, rfl⟩
  case step =>
    obtain ⟨hrun, hpc, hword⟩ := h
    refine ⟨_, step_running_val 3 a hrun hpc hword (exec_sta a (s.advance p)), ?_⟩
    rw [endCheck_mem]
    exact ⟨hsame s, hother s, endCheck_acc _, endCheck_out _, ⟨endCheck_channel _, endCheck_otcTable _⟩,
      fallsThrough_endCheck hrun rfl rfl⟩

/-- Settles O15: opcode digit 5 is LDA, whose meaning is `acc <- mem[a]`, one more instruction that writes only `acc`; the
advance before it does not change the cell it reads. -/
theorem ldaInstruction : Obligations.LdaInstruction := fun a =>
  ⟨fun w hw => decode_of_val w 5 a hw, fun s => ⟨_, exec_lda a s, rfl, onlyAcc_setAcc ..⟩,
    fun s p h => step_setAcc 5 a h rfl (exec_lda a (s.advance p))⟩

end Sys2Proof.Machine
end

section
/-! Branches (spec/44_branch.md R140 to R143): the meanings of BRA, BRZ and BRP, the effect of a jump taken on a condition,
and the obligation that a branch writes only `pc`. -/

namespace Sys2Proof.Machine

theorem exec_bra (a : Addr) (s : State) : exec (.bra a) s = .next (s.jump a) := exec_eq (.bra a) s

theorem exec_brz (a : Addr) (s : State) : exec (.brz a) s = .next (if s.acc.val = 0 then s.jump a else s) := by
  rw [exec_eq]
  simp only [State.accIsZero, decide_eq_true_eq]

theorem exec_brp (a : Addr) (s : State) : exec (.brp a) s = .next (if 0 ≤ s.acc.val then s.jump a else s) := by
  rw [exec_eq]
  simp only [State.accIsNonneg, decide_eq_true_eq]

theorem onlyPc_refl (s : State) : OnlyPc s s := ⟨rfl, rfl, rfl, fun _ => rfl, rfl, rfl⟩

theorem onlyPc_jump (s : State) (a : Addr) : OnlyPc s (s.jump a) := ⟨rfl, rfl, rfl, fun _ => rfl, rfl, rfl⟩

/-- A jump taken where `c` holds: `pc` takes the target there and stays otherwise, and nothing else is written (R143). -/
theorem jump_if_effect (c : Prop) [Decidable c] (a : Addr) (s : State) :
    (c → (if c then s.jump a else s).pc.val = a.val) ∧ (¬c → (if c then s.jump a else s).pc = s.pc) ∧
      OnlyPc s (if c then s.jump a else s) := by
  by_cases hc : c
  case pos =>
    rw [if_pos hc]
    exact ⟨fun _ => rfl, absurd hc, onlyPc_jump s a⟩
  case neg =>
    rw [if_neg hc]
    exact ⟨fun h => absurd h hc, fun _ => rfl, onlyPc_refl s⟩

/-- Settles O16: opcode digits 6, 7 and 8 are the three branches. BRA is a jump; BRZ and BRP are a jump on a condition,
where `acc < 0` is the negation of BRP's. -/
theorem branchesWriteOnlyPc : Obligations.BranchesWriteOnlyPc := by
  intro a s
  refine ⟨fun w => ⟨decode_of_val w 6 a, decode_of_val w 7 a, decode_of_val w 8 a⟩, ?bra, ?brz, ?brp⟩
  case bra => exact ⟨_, exec_bra a s, rfl, onlyPc_jump s a⟩
  case brz => exact ⟨_, exec_brz a s, jump_if_effect (s.acc.val = 0) a s⟩
  case brp =>
    obtain ⟨htaken, hnot, honly⟩ := jump_if_effect (0 ≤ s.acc.val) a s
    exact ⟨_, exec_brp a s, htaken, fun hneg => hnot hneg.not_ge, honly⟩

end Sys2Proof.Machine
end

section
/-! Input and output (spec/45_io.md R161, R165): how the end-of-memory check ends an invocation of INP, what an instruction
that only appends does in a step, and the obligations on INP and OTC. -/

namespace Sys2Proof.Machine

/-! ### INP -/

theorem exec_inp (s : State) : exec .inp s = .next (s.setPhase .waitInput) := exec_eq .inp s

/-- The end-of-memory check has not run yet while INP waits (R87). -/
@[simp] theorem endCheck_setPhase_waitInput (s : State) :
    endCheck (s.setPhase .waitInput) = s.setPhase .waitInput :=
  if_neg fun ⟨hrun, _⟩ => nomatch hrun

theorem endCheck_of_pc_le {s : State} (hpc : s.pc.val ≤ 99) : endCheck s = s :=
  if_neg fun ⟨_, hend⟩ => hend.not_ge hpc

theorem haltedWith_endCheck_of_pc_eq {s : State} (hrun : s.status.phase = .running) (hpc : s.pc.val = 100) :
    (endCheck s).HaltedWith 100 .noMore := by
  obtain ⟨-, hend, hhalt⟩ | ⟨hno, -⟩ := endCheck_cases s
  · rw [hhalt]
    exact ⟨rfl, congrArg some hend, rfl⟩
  · exact absurd ⟨hrun, Fin.ext hpc⟩ hno

/-- The input step on a ready word (R161): it is taken and written to `acc`, the engine is RUNNING, and the check of the
INP's invocation is made. -/
theorem step_word {s : State} {v : Word} {rest : List Answer} (hwait : s.status.phase = .waitInput)
    (hch : s.channel = .word v :: rest) :
    step s = .next (endCheck ((({ s with channel := rest } : State).setAcc v).setPhase .running)) :=
  step_answer hwait hch

/-- Settles O26: INP's execute part and the input step on a malformed answer are each one field's update. The input step on
a word ends in the end-of-memory check, which writes only the status, and fires where the INP was fetched from cell 99. -/
theorem inpInstruction : Obligations.InpInstruction := by
  refine ⟨fun w hw => decode_of_val w 9 1 hw, fun s => ?exec, fun s p h => ?fetched, fun s rest hwait hch => ?malformed,
    fun s v rest hwait hch => ?word⟩
  case exec =>
    exact ⟨_, exec_inp s, rfl, rfl, rfl, rfl, rfl, rfl, fun _ => rfl, ⟨rfl, rfl⟩, fun v rest hch =>
      ⟨_, step_word rfl hch, endCheck_acc _, endCheck_channel _⟩⟩
  case fetched =>
    obtain ⟨hrun, hpc, hval⟩ := h
    refine ⟨_, step_running_val 9 1 hrun hpc hval (exec_inp (s.advance p)), ?_⟩
    rw [endCheck_setPhase_waitInput]
    exact ⟨rfl, rfl, rfl, rfl, fun _ => rfl, rfl, rfl⟩
  case malformed => exact ⟨_, step_answer hwait hch, rfl, rfl, rfl, rfl, rfl, fun _ => rfl, rfl⟩
  case word =>
    refine ⟨_, step_word hwait hch, endCheck_channel _, endCheck_acc _, endCheck_pc _, endCheck_out _,
      fun b => congrArg (Memory.read · b) (endCheck_mem _), endCheck_otcTable _, fun hpc => ?_,
      fun hpc => haltedWith_endCheck_of_pc_eq rfl hpc⟩
    rw [endCheck_of_pc_le]
    · exact ⟨rfl, rfl, rfl⟩
    · exact hpc

/-! ### OTC -/

theorem exec_otc (s : State) : exec .otc s = .next (s.append [otcMap s.otcTable s.acc]) := exec_eq .otc s

theorem onlyOut_append (s : State) (chars : List Char) : OnlyOut s (s.append chars) :=
  ⟨rfl, rfl, rfl, fun _ => rfl, rfl, rfl⟩

/-- A step from cell `p` on a word whose meaning is `Append(chars)` (R167): the output grows by `chars`, the advance and
the end-of-memory check are made, and nothing else changes. -/
theorem step_append {s : State} {p : Addr} {w : Int} {chars : List Char} (o : Fin 10) (a : Addr) (h : RunsAt s p w)
    (hw : w = 100 * (o.val : Int) + (a.val : Int))
    (hexec : exec (decodeDigits o.val a) (s.advance p) = .next ((s.advance p).append chars)) :
    ∃ t, step s = .next t ∧ t.out = s.out ++ chars ∧ t.acc = s.acc ∧ SameCells s t ∧ SameParams s t ∧
      FallsThrough s p t := by
  obtain ⟨hrun, hpc, hval⟩ := h
  exact ⟨_, step_running_val o a hrun hpc (hval.trans hw) hexec, endCheck_out _, endCheck_acc _,
    fun b => congrArg (Memory.read · b) (endCheck_mem _), ⟨endCheck_channel _, endCheck_otcTable _⟩,
    fallsThrough_endCheck hrun rfl rfl⟩

/-- Settles O31: word 922 is OTC, whose meaning appends one character; the advance before it changes neither `acc` nor the
machine's table. The rule's three code points are values of the default map. -/
theorem otcInstruction : Obligations.OtcInstruction :=
  ⟨fun w hw => decode_of_val w 9 22 hw, fun s => ⟨_, exec_otc s, rfl, onlyOut_append ..⟩,
    fun s p h => step_append 9 22 h rfl (exec_otc (s.advance p)), by decide⟩

end Sys2Proof.Machine
end

section
/-! Halts (spec/60_exceptions.md R181, R184): what a raised halt records and leaves, what an execute part can do to
`pc` and to the status, and the obligations on HLT and on `NO_MORE`. -/

namespace Sys2Proof.Machine

/-! ### A halt raised by execute -/

theorem haltedWith_raiseHalt (c : HaltCause) (s : State) : (raiseHalt c s).HaltedWith s.pc c := ⟨rfl, rfl, rfl⟩

theorem onlyStatus_raiseHalt (c : HaltCause) (s : State) : OnlyStatus s (raiseHalt c s) :=
  ⟨rfl, rfl, rfl, fun _ => rfl, rfl, rfl⟩

/-- A step from cell `p` on a word whose meaning is `raise Halt(c)`: the halt address is the advanced `pc` (R89), from
cell 99 too, since a halt is not checked again, and nothing else changes. -/
theorem step_raiseHalt {s : State} {p : Addr} {w : Int} {c : HaltCause} (h : RunsAt s p w)
    (hexec : exec (decode (s.mem.read p)) (s.advance p) = .next (raiseHalt c (s.advance p))) :
    ∃ t, step s = .next t ∧ t.HaltedWith p.succ c ∧ t.pc = p.succ ∧ t.acc = s.acc ∧ t.out = s.out ∧
      SameCells s t ∧ SameParams s t := by
  obtain ⟨hrun, hpc, -⟩ := h
  refine ⟨raiseHalt c (s.advance p), ?_, haltedWith_raiseHalt .., rfl, rfl, rfl, fun _ => rfl, rfl, rfl⟩
  rw [step_running hrun hpc hexec, endCheck_raiseHalt]

/-! ### HLT -/

theorem exec_hlt (a : Addr) (s : State) : exec (.hlt a) s = .next (raiseHalt .haltCmd s) := exec_eq (.hlt a) s

/-- Settles O20: opcode digit 0 is HLT, whose meaning is to raise `HALT_CMD`, whatever its operand digits. -/
theorem hltInstruction : Obligations.HltInstruction := by
  refine ⟨fun a s => ?exec, fun s p a h => ?step⟩
  case exec => exact ⟨_, exec_hlt a s, haltedWith_raiseHalt .., onlyStatus_raiseHalt ..⟩
  case step =>
    have ⟨_, _, hval⟩ := h
    have hdecode : decode (s.mem.read p) = .hlt a := decode_of_val _ 0 a (by simpa using hval)
    exact step_raiseHalt h (by rw [hdecode, exec_hlt])

/-! ### NO_MORE -/

/-- An execute part leaves `pc` as it was or loads it with a cell's address, so it never loads 100 (R143). -/
theorem exec_pc {i : Instr} {s t : State} (h : exec i s = .next t) :
    t.pc = s.pc ∨ ∃ a : Addr, t.pc = a.castSucc := by
  obtain ⟨_, rfl⟩ | ⟨_, rfl⟩ | ⟨_, -, rfl⟩ | ⟨a, rfl⟩ | rfl | ⟨_, rfl⟩ | ⟨-, rfl⟩ := exec_cases h
  any_goals exact .inl rfl
  exact .inr ⟨a, rfl⟩

/-- An execute part leaves the status as it was, waits, or raises a halt; the halt is never `NO_MORE` (R180). -/
theorem exec_status {i : Instr} {s t : State} (h : exec i s = .next t) :
    t.status = s.status ∨ t.status.phase = .waitInput ∨ ∃ c, c ≠ .noMore ∧ t = raiseHalt c s := by
  rw [exec_eq] at h
  injection h with h
  subst h
  cases i
  case hlt => exact .inr (.inr ⟨.haltCmd, by decide, rfl⟩)
  case badOpcode4 => exact .inr (.inr ⟨.badInstr, by decide, rfl⟩)
  case badOpcode9 => exact .inr (.inr ⟨.badInstr, by decide, rfl⟩)
  case negInstr => exact .inr (.inr ⟨.negInstr, by decide, rfl⟩)
  case inp => exact .inr (.inl rfl)
  case brz => dsimp only; split <;> exact .inl rfl
  case brp => dsimp only; split <;> exact .inl rfl
  all_goals exact .inl rfl

/-- From RUNNING, no execute part halts with `NO_MORE`: only the end-of-memory check does. -/
theorem exec_not_haltedWith_noMore {i : Instr} {s t : State} {c : PcVal} (hrun : s.status.phase = .running)
    (h : exec i s = .next t) : ¬ t.HaltedWith c .noMore := by
  rintro ⟨hhalted, -, hcause⟩
  obtain hsame | hwait | ⟨_, hne, rfl⟩ := exec_status h
  · rw [hsame, hrun] at hhalted
    cases hhalted
  · rw [hwait] at hhalted
    cases hhalted
  · exact hne (Option.some.inj hcause)

theorem onlyStatus_endCheck (s : State) : OnlyStatus s (endCheck s) :=
  ⟨endCheck_pc s, endCheck_acc s, endCheck_out s, fun b => congrArg (Memory.read · b) (endCheck_mem s),
    endCheck_channel s, endCheck_otcTable s⟩

/-- Where a checked state is halted with `NO_MORE`, it was so before the check, or the check fired, at address 100. -/
theorem haltedWith_noMore_of_endCheck {t : State} {c : PcVal} (h : (endCheck t).HaltedWith c .noMore) :
    t.HaltedWith c .noMore ∨ (t.status.phase = .running ∧ t.pc = 100 ∧ c = 100) := by
  obtain ⟨hrun, hend, hfires⟩ | ⟨-, hsame⟩ := endCheck_cases t
  · rw [hfires] at h
    obtain ⟨-, haddr, -⟩ := h
    exact .inr ⟨hrun, hend, (Option.some.inj haddr).symm.trans hend⟩
  · exact .inl (hsame ▸ h)

/-- An instruction that ends at `pc = 100` was fetched from cell 99: a taken branch does not reach 100 (R84, R143). -/
theorem eq_last_of_exec_advance_pc {i : Instr} {s t : State} {p : Addr} (h : exec i (s.advance p) = .next t)
    (hend : t.pc = 100) : p = 99 := by
  obtain hpc | ⟨a, ha⟩ := exec_pc h
  · exact Fin.succ_injective _ (hpc.symm.trans hend)
  · exact absurd (ha.symm.trans hend) (Fin.castSucc_ne_last a)

/-- Settles O23: the end-of-memory check fires on every execute part that ends RUNNING at `pc = 100`, and on the input
step of an INP that waits there, and writes only the status. Conversely no execute part raises `NO_MORE` itself, so the
check fired, and no taken branch reaches 100, so the instruction was at cell 99. -/
theorem noMoreAfterTheLastCell : Obligations.NoMoreAfterTheLastCell := by
  refine ⟨fun s t hrun hpc hexec htrun hend => ?halts, fun s u c hrun hstep hhalt => ?onlySo,
    fun s v rest hwait hpc hch => ?input⟩
  case halts =>
    exact ⟨_, step_running (p := 99) hrun hpc hexec, haltedWith_endCheck_of_pc_eq htrun (congrArg Fin.val hend),
      onlyStatus_endCheck t⟩
  case onlySo =>
    obtain ⟨-, p, t, hpc, hexec, rfl⟩ | ⟨hwait, -⟩ | ⟨hwait, -⟩ := step_cases hstep
    · obtain hearly | ⟨htrun, hend, rfl⟩ := haltedWith_noMore_of_endCheck hhalt
      · exact absurd hearly (exec_not_haltedWith_noMore (s := s.advance p) hrun hexec)
      · obtain rfl := eq_last_of_exec_advance_pc hexec hend
        exact ⟨rfl, hpc, t, hexec, htrun, hend, onlyStatus_endCheck t⟩
    · exact nomatch hrun.symm.trans hwait
    · exact nomatch hrun.symm.trans hwait
  case input =>
    exact ⟨_, step_word hwait hch, haltedWith_endCheck_of_pc_eq rfl (congrArg Fin.val hpc), endCheck_acc _,
      endCheck_pc _, endCheck_out _, fun b => congrArg (Memory.read · b) (endCheck_mem _)⟩

end Sys2Proof.Machine
end

section
/-! The loader's contract on tokens (spec/70_reset_and_hazards.md R201 to R203): which token lists have words, what
`loadTokens` answers in each of its three cases, and the obligation on load errors. -/

namespace Sys2Proof.Machine

/-! ### The words of a list of tokens -/

/-- The word of a token that writes a word is that word. -/
@[simp] theorem Token.word?_integer_val (w : Word) : (Token.integer w.val).word? = some w := dif_pos w.property

theorem wordsOfTokens_cons (t : Token) (rest : List Token) :
    wordsOfTokens (t :: rest) = t.word?.bind fun w => (wordsOfTokens rest).map (w :: ·) := by
  rw [wordsOfTokens]
  cases t.word? with
  | none => rfl
  | some w => cases wordsOfTokens rest <;> rfl

/-- All or none (R202): a list of tokens has no words exactly where one of its tokens has none. -/
theorem wordsOfTokens_eq_none_iff (tokens : List Token) :
    wordsOfTokens tokens = none ↔ ∃ t ∈ tokens, t.word? = none := by
  induction tokens with
  | nil => simp [wordsOfTokens]
  | cons t rest ih =>
    rw [wordsOfTokens_cons, List.exists_mem_cons_iff, ← ih]
    cases t.word? <;> simp

/-- The tokens that write the words of an image have that image as their words. -/
theorem wordsOfTokens_map_integer (image : List Word) :
    wordsOfTokens (image.map fun w => Token.integer w.val) = some image := by
  induction image with
  | nil => rfl
  | cons w rest ih => rw [List.map_cons, wordsOfTokens_cons, ih, Token.word?_integer_val]; rfl

/-! ### The three answers of `loadTokens` -/

/-- The capacity error comes first, whatever the tokens are (R202, log 13). -/
theorem loadTokens_of_length_gt {tokens : List Token} (h : 100 < tokens.length) :
    loadTokens tokens = .error .inputTooLong := if_pos h

/-- Where the tokens fit in memory, one without a word fails the load (R202, R203). -/
theorem loadTokens_of_word?_eq_none {tokens : List Token} {t : Token} (hfits : tokens.length ≤ 100) (ht : t ∈ tokens)
    (hword : t.word? = none) : loadTokens tokens = .error .parse := by
  have hnone : wordsOfTokens tokens = none := (wordsOfTokens_eq_none_iff tokens).2 ⟨t, ht, hword⟩
  rw [loadTokens, if_neg (Nat.not_lt.2 hfits), hnone]

/-- Where the tokens fit in memory and have words, the load constructs the reset state with these words (R201). -/
theorem loadTokens_of_wordsOfTokens {tokens : List Token} {image : List Word} (hfits : tokens.length ≤ 100)
    (hwords : wordsOfTokens tokens = some image) :
    loadTokens tokens = .ok { State.reset with mem := Memory.ofImage 0 image } := by
  rw [loadTokens, if_neg (Nat.not_lt.2 hfits), hwords]

/-- Settles O9: one clause per answer of `loadTokens`; a token that is no integer has no word, and the tokens of an
image have the image as their words, which `load` lays out the same way. -/
theorem loadTokensContract : Obligations.LoadTokensContract := by
  refine ⟨fun tokens => loadTokens_of_length_gt, fun tokens hfits hother => ?parse, fun image hfits => ?words⟩
  case parse => exact loadTokens_of_word?_eq_none hfits hother rfl
  case words =>
    have hlength : (image.map fun w => Token.integer w.val).length ≤ 100 := by rwa [List.length_map]
    exact ⟨_, load_of_length_le hfits, loadTokens_of_wordsOfTokens hlength (wordsOfTokens_map_integer image)⟩

end Sys2Proof.Machine
end

section
/-! Decoding and encoding (spec/30_encoding.md R61 to R68): the four results of opcode 9, the two round trips and the opcode
map. -/

namespace Sys2Proof

/-! ### Opcode 9 -/

theorem isSelector_eq_false_iff (a : Addr) : isSelector a = false ↔ a.val ≠ 1 ∧ a.val ≠ 2 ∧ a.val ≠ 22 := by
  simp [isSelector, and_assoc]

/-- Opcode 9 selects one of its three functions, or is a BAD_INSTR word (R65). -/
theorem decodeSelector_cases (a : Addr) :
    (a = 1 ∧ decodeSelector a = .inp) ∨ (a = 2 ∧ decodeSelector a = .out) ∨ (a = 22 ∧ decodeSelector a = .otc) ∨
      (isSelector a = false ∧ decodeSelector a = .badOpcode9 a) := by
  unfold decodeSelector
  split_ifs with h1 h2 h22
  · exact .inl ⟨Fin.ext h1, rfl⟩
  · exact .inr (.inl ⟨Fin.ext h2, rfl⟩)
  · exact .inr (.inr (.inl ⟨Fin.ext h22, rfl⟩))
  · exact .inr (.inr (.inr ⟨(isSelector_eq_false_iff a).2 ⟨h1, h2, h22⟩, rfl⟩))

theorem decodeSelector_of_not_isSelector {a : Addr} (h : isSelector a = false) :
    decodeSelector a = .badOpcode9 a := by
  obtain ⟨h1, h2, h22⟩ := (isSelector_eq_false_iff a).1 h
  rw [decodeSelector, if_neg h1, if_neg h2, if_neg h22]

/-! ### Round trips -/

/-- Settles O1: the decoder evaluated on the 22 words. -/
theorem decodeSampleWords : Obligations.DecodeSampleWords := by
  unfold Obligations.DecodeSampleWords
  decide

/-- Settles O2: the word of a row with an opcode digit is written by that digit and the operand, and `decode` reads both
back (`decode_ofDigits`). Well-formedness is used in the two rows that do not hold every operand or word. -/
theorem decodeEncodeRoundTrip : Obligations.DecodeEncodeRoundTrip := by
  intro i hwf
  cases i with
  | hlt a => exact decode_ofDigits 0 a
  | add a => exact decode_ofDigits 1 a
  | sub a => exact decode_ofDigits 2 a
  | sta a => exact decode_ofDigits 3 a
  | badOpcode4 a => exact decode_ofDigits 4 a
  | lda a => exact decode_ofDigits 5 a
  | bra a => exact decode_ofDigits 6 a
  | brz a => exact decode_ofDigits 7 a
  | brp a => exact decode_ofDigits 8 a
  | inp => exact decode_ofDigits 9 1
  | out => exact decode_ofDigits 9 2
  | otc => exact decode_ofDigits 9 22
  | badOpcode9 a =>
    exact (decode_ofDigits 9 a).trans (decodeSelector_of_not_isSelector (Bool.not_eq_true' _ |>.mp hwf))
  | negInstr w => exact decode_neg (of_decide_eq_true hwf)

/-- What the opcode map gives for two fields is a well-formed term, and its word is written by these fields. -/
theorem decodeDigits_wellFormed_encode (o : Fin 10) (a : Addr) :
    (decodeDigits o.val a).wellFormed = true ∧ encode (decodeDigits o.val a) = Word.ofDigits o a := by
  match o with
  | 0 | 1 | 2 | 3 | 4 | 5 | 6 | 7 | 8 => exact ⟨rfl, rfl⟩
  | 9 =>
    change (decodeSelector a).wellFormed = true ∧ encode (decodeSelector a) = Word.ofDigits 9 a
    obtain ⟨rfl, h⟩ | ⟨rfl, h⟩ | ⟨rfl, h⟩ | ⟨hsel, h⟩ := decodeSelector_cases a
    · exact ⟨rfl, rfl⟩
    · exact ⟨rfl, rfl⟩
    · exact ⟨rfl, rfl⟩
    · rw [h]
      exact ⟨congrArg not hsel, rfl⟩

/-- Settles O3: a negative word is its own term; any other word is written by its two fields, which the opcode map keeps. -/
theorem encodeDecodeRoundTrip : Obligations.EncodeDecodeRoundTrip := by
  intro w
  obtain hneg | hnonneg := lt_or_ge w.val 0
  · rw [decode_neg hneg]
    exact ⟨decide_eq_true hneg, rfl⟩
  · obtain ⟨o, a, rfl⟩ := Word.eq_ofDigits hnonneg
    rw [decode_ofDigits]
    exact decodeDigits_wellFormed_encode o a

/-- Settles O5: each row is the opcode map at the two digits of the row's words. -/
theorem decodeFollowsOpcodeMap : Obligations.DecodeFollowsOpcodeMap := by
  refine fun w => ⟨decode_neg, fun a => ⟨decode_of_val w 0 a, decode_of_val w 1 a, decode_of_val w 2 a,
    decode_of_val w 3 a, decode_of_val w 4 a, decode_of_val w 5 a, decode_of_val w 6 a, decode_of_val w 7 a,
    decode_of_val w 8 a, decode_of_val w 9 1, decode_of_val w 9 2, decode_of_val w 9 22, fun hw h1 h2 h22 => ?_⟩⟩
  exact (decode_of_val w 9 a hw).trans
    (decodeSelector_of_not_isSelector ((isSelector_eq_false_iff a).2 ⟨h1, h2, h22⟩))

end Sys2Proof
end

section
/-! How a cycle step ends, by the fetched word (spec/60_exceptions.md R180 to R187): the words by what their instruction
does to `pc` and the status, said once, and the obligations on the words that halt and on the end of a step. -/

namespace Sys2Proof.Machine

/-! ### The words by their ending -/

/-- The words whose execute part raises `c` (R180, column "raised by"); `NO_MORE` is raised by no execute part. -/
def RaisesHalt (c : HaltCause) (w : Word) : Prop :=
  match c with
  | .haltCmd => 0 ≤ w.val ∧ w.val ≤ 99
  | .negInstr => w.val < 0
  | .badInstr => IsBadWord w
  | .noMore => False

/-- The branch words that are taken with `acc` in the accumulator (R140 to R142). -/
def TakesBranch (acc w : Word) : Prop :=
  (600 ≤ w.val ∧ w.val ≤ 699) ∨ (700 ≤ w.val ∧ w.val ≤ 799 ∧ acc.val = 0) ∨
  (800 ≤ w.val ∧ w.val ≤ 899 ∧ 0 ≤ acc.val)

/-- The words that complete in the execute part and leave the advanced `pc`: ADD, SUB, STA, LDA, OUT, OTC and the
conditional branches not taken. -/
def CompletesInPlace (acc w : Word) : Prop :=
  (100 ≤ w.val ∧ w.val ≤ 399) ∨ (500 ≤ w.val ∧ w.val ≤ 599) ∨ w.val = 902 ∨ w.val = 922 ∨
  (700 ≤ w.val ∧ w.val ≤ 799 ∧ acc.val ≠ 0) ∨ (800 ≤ w.val ∧ w.val ≤ 899 ∧ acc.val < 0)

/-- How the execute part of `w` turns `s` into `t`: a raised halt, the wait of INP, a taken branch, or neither `pc` nor the
status written. -/
def EndsAs (w : Word) (s t : State) : Prop :=
  (∃ c, RaisesHalt c w ∧ t = raiseHalt c s) ∨
  (w.val = 901 ∧ t = s.setPhase .waitInput) ∨
  (TakesBranch s.acc w ∧ ∃ a, t = s.jump a) ∨
  (CompletesInPlace s.acc w ∧ t.pc = s.pc ∧ t.status = s.status)

theorem endsAs_raiseHalt {c : HaltCause} {w : Word} (s : State) (h : RaisesHalt c w) : EndsAs w s (raiseHalt c s) :=
  .inl ⟨c, h, rfl⟩

theorem endsAs_jump {w : Word} {s : State} (a : Addr) (h : TakesBranch s.acc w) : EndsAs w s (s.jump a) :=
  .inr (.inr (.inl ⟨h, a, rfl⟩))

theorem endsAs_inPlace {w : Word} {s t : State} (h : CompletesInPlace s.acc w) (hpc : t.pc = s.pc)
    (hstatus : t.status = s.status) : EndsAs w s t := .inr (.inr (.inr ⟨h, hpc, hstatus⟩))

/-- A jump on a condition ends as a taken branch or in place. -/
theorem endsAs_jump_if {w : Word} {s : State} {c : Prop} [Decidable c] (a : Addr) (htaken : c → TakesBranch s.acc w)
    (hnot : ¬c → CompletesInPlace s.acc w) : EndsAs w s (if c then s.jump a else s) := by
  split
  case isTrue h => exact endsAs_jump a (htaken h)
  case isFalse h => exact endsAs_inPlace (hnot h) rfl rfl

/-- Every word has one of the endings: the opcode map row by row. -/
theorem exec_decode_endsAs {w : Word} {s t : State} (h : exec (decode w) s = .next t) : EndsAs w s t := by
  rw [exec_eq] at h
  injection h with h
  subst h
  obtain hneg | hnonneg := lt_or_ge w.val 0
  · rw [decode_neg hneg]
    exact endsAs_raiseHalt s hneg
  obtain ⟨o, a, rfl⟩ := Word.eq_ofDigits hnonneg
  rw [decode_ofDigits]
  match o with
  | 0 => exact endsAs_raiseHalt (c := .haltCmd) s (by simp only [RaisesHalt, Word.ofDigits_val]; omega)
  | 4 => exact endsAs_raiseHalt (c := .badInstr) s (by simp only [RaisesHalt, IsBadWord, Word.ofDigits_val]; omega)
  | 1 | 2 | 3 | 5 => exact endsAs_inPlace (by simp only [CompletesInPlace, Word.ofDigits_val]; omega) rfl rfl
  | 6 => exact endsAs_jump a (by simp only [TakesBranch, Word.ofDigits_val]; omega)
  | 7 =>
    have htaken : s.accIsZero = true ↔ s.acc.val = 0 := decide_eq_true_iff
    exact endsAs_jump_if a (by simp only [htaken, TakesBranch, Word.ofDigits_val]; omega)
      (by simp only [htaken, CompletesInPlace, Word.ofDigits_val]; omega)
  | 8 =>
    have htaken : s.accIsNonneg = true ↔ 0 ≤ s.acc.val := decide_eq_true_iff
    exact endsAs_jump_if a (by simp only [htaken, TakesBranch, Word.ofDigits_val]; omega)
      (by simp only [htaken, CompletesInPlace, Word.ofDigits_val]; omega)
  | 9 =>
    have hrow : decodeDigits (9 : Fin 10).val a = decodeSelector a := rfl
    rw [hrow]
    obtain ⟨rfl, h⟩ | ⟨rfl, h⟩ | ⟨rfl, h⟩ | ⟨hsel, h⟩ := decodeSelector_cases a <;> rw [h]
    · exact .inr (.inl ⟨rfl, rfl⟩)
    · exact endsAs_inPlace (.inr (.inr (.inl rfl))) rfl rfl
    · exact endsAs_inPlace (.inr (.inr (.inr (.inl rfl)))) rfl rfl
    · refine endsAs_raiseHalt (c := .badInstr) s ?_
      have hne := (isSelector_eq_false_iff a).1 hsel
      simp only [RaisesHalt, IsBadWord, Word.ofDigits_val]
      omega

/-! ### The end of a step -/

/-- A step from RUNNING at a cell always answers a next state (R91). -/
theorem exists_exec_step {s : State} {p : Addr} (hrun : s.status.phase = .running) (hpc : s.pc = p.castSucc) :
    ∃ t, exec (decode (s.mem.read p)) (s.advance p) = .next t ∧ step s = .next (endCheck t) :=
  ⟨_, exec_eq .., step_running hrun hpc (exec_eq ..)⟩

theorem not_haltedWith_of_phase_ne {t : State} (h : t.status.phase ≠ .halted) (addr : PcVal) (c : HaltCause) :
    ¬ t.HaltedWith addr c := fun ⟨hhalted, _⟩ => h hhalted

/-- A halt record holds one cause. -/
theorem haltedWith_cause_iff {t : State} {addr : PcVal} {c : HaltCause} (h : t.HaltedWith addr c) (c' : HaltCause) :
    t.HaltedWith addr c' ↔ c = c' := by
  obtain ⟨hhalted, haddr, hcause⟩ := h
  simp [State.HaltedWith, hhalted, haddr, hcause]

/-- Settles O24: by the ending of the fetched word. Each ending fixes the causes that the step is halted with (one, or
none), and then every clause compares ranges of the word. -/
theorem runningStepEndsByTheFetchedWord : Obligations.RunningStepEndsByTheFetchedWord := by
  intro s p w ⟨hrun, hpc, hval⟩
  obtain rfl : s.mem.read p = w := Subtype.ext hval
  obtain ⟨t, hexec, hstep⟩ := exists_exec_step hrun hpc
  refine ⟨_, hstep, ?_⟩
  obtain ⟨c, hword, rfl⟩ | ⟨hword, rfl⟩ | ⟨hword, a, rfl⟩ | ⟨hword, htpc, hstatus⟩ := exec_decode_endsAs hexec
  · -- a halt raised by execute: its own cause and no other
    have hcause : ∀ c', (raiseHalt c (s.advance p)).HaltedWith p.succ c' ↔ c = c' :=
      haltedWith_cause_iff (haltedWith_raiseHalt c (s.advance p))
    simp only [endCheck_raiseHalt, hcause]
    cases c <;> simp [RaisesHalt, IsBadWord] at hword ⊢ <;> omega
  · -- the wait of INP: no halt
    have hcause := not_haltedWith_of_phase_ne (t := (s.advance p).setPhase .waitInput) nofun
    simp [hcause, IsBadWord]
    omega
  · -- a taken branch: no halt, from cell 99 either
    have hcause := not_haltedWith_of_phase_ne (t := (s.advance p).jump a) (by simp [hrun])
    simp [hcause, IsBadWord, TakesBranch, hrun] at hword ⊢
    omega
  · -- completed in place: `NO_MORE` from cell 99 and no halt from another
    obtain ⟨-, hbefore, hlast⟩ := fallsThrough_endCheck hrun htpc hstatus
    obtain hp | hp := Nat.lt_succ_iff_lt_or_eq.1 p.isLt
    · have hcause := not_haltedWith_of_phase_ne (t := endCheck t) (by simp [hbefore hp, hrun])
      simp [hcause, IsBadWord, CompletesInPlace, hrun, hbefore hp] at hword ⊢
      omega
    · have hsucc : p.succ = 100 := Fin.ext (congrArg Nat.succ hp)
      have hcause := haltedWith_cause_iff (hlast hp)
      obtain ⟨hhalted, haddr, -⟩ := hlast hp
      simp [hsucc, hcause, hhalted, haddr, htpc, hp, IsBadWord, CompletesInPlace] at hword ⊢
      omega

/-! ### Words that halt at decode -/

/-- Settles O21: a negative word decodes to `negInstr`, whose meaning is to raise `NEG_INSTR`. -/
theorem negativeWordHalts : Obligations.NegativeWordHalts := by
  have hexec (w : Word) (s : State) : exec (.negInstr w) s = .next (raiseHalt .negInstr s) := exec_eq (.negInstr w) s
  refine ⟨fun w s => ⟨_, hexec w s, haltedWith_raiseHalt .., onlyStatus_raiseHalt ..⟩, fun s p i h hneg => ?_⟩
  have ⟨_, _, hval⟩ := h
  exact step_raiseHalt h (by rw [decode_neg (hval ▸ hneg), hexec])

/-- The words of the two BAD_INSTR rows decode to these rows, operand 9aa other than a selector (R64, R65). -/
theorem decode_of_isBadWord {w : Word} (h : IsBadWord w) :
    (∃ a, decode w = .badOpcode4 a) ∨ ∃ a, decode w = .badOpcode9 a := by
  obtain ⟨hlo, hhi⟩ | ⟨hlo, hhi, h1, h2, h22⟩ := h
  · exact .inl ⟨⟨(w.val - 400).toNat, by omega⟩, decode_of_val w 4 _ (by simp; omega)⟩
  · let a : Addr := ⟨(w.val - 900).toNat, by omega⟩
    have hval : w.val = 900 + (a.val : Int) := by simp only [a]; omega
    refine .inr ⟨a, (decode_of_val w 9 a hval).trans (decodeSelector_of_not_isSelector ?_)⟩
    exact (isSelector_eq_false_iff a).2 (by omega)

/-- Settles O22: both rows mean to raise `BAD_INSTR`, so a word of either is one more raised halt. -/
theorem badWordHalts : Obligations.BadWordHalts := by
  have hexec4 (a : Addr) (s : State) : exec (.badOpcode4 a) s = .next (raiseHalt .badInstr s) :=
    exec_eq (.badOpcode4 a) s
  have hexec9 (a : Addr) (s : State) : exec (.badOpcode9 a) s = .next (raiseHalt .badInstr s) :=
    exec_eq (.badOpcode9 a) s
  refine ⟨fun a s => ⟨_, hexec4 a s, haltedWith_raiseHalt .., onlyStatus_raiseHalt ..⟩,
    fun a s => ⟨_, hexec9 a s, haltedWith_raiseHalt .., onlyStatus_raiseHalt ..⟩, fun s p w h hbad => ?_⟩
  have ⟨_, _, hval⟩ := h
  obtain rfl : s.mem.read p = w := Subtype.ext hval
  obtain ⟨a, hdecode⟩ | ⟨a, hdecode⟩ := decode_of_isBadWord hbad
  · exact step_raiseHalt h (by rw [hdecode, hexec4])
  · exact step_raiseHalt h (by rw [hdecode, hexec9])

end Sys2Proof.Machine
end

section
/-! The engine's invariant (spec/40_cycle_engine.md R80 to R92, spec/10_state.md R29): how each kind of state is sound, that
every step keeps soundness, and the obligations on loaded states and on runs. -/

namespace Sys2Proof.Machine

/-! ### Soundness by phase -/

theorem sound_of_running {s : State} (hmem : s.mem.wf = true) (hstatus : s.status = RunStatus.runningStatus)
    (hpc : s.pc.val ≤ 99) : s.Sound where
  memory := hmem
  running _ := hpc
  noRecord _ := by rw [hstatus]; exact ⟨rfl, rfl⟩
  waiting h := by rw [hstatus] at h; cases h
  record h := by rw [hstatus] at h; cases h

theorem sound_of_waiting {s : State} {p : Addr} (hmem : s.mem.wf = true)
    (hstatus : s.status = ⟨.waitInput, none, none⟩) (hpc : s.pc = p.succ) (hword : (s.mem.read p).val = 901) :
    s.Sound where
  memory := hmem
  running h := by rw [hstatus] at h; cases h
  noRecord _ := by rw [hstatus]; exact ⟨rfl, rfl⟩
  waiting _ := ⟨p, hpc, hword⟩
  record h := by rw [hstatus] at h; cases h

theorem sound_raiseHalt {s : State} {p : Addr} {c : HaltCause} (hmem : s.mem.wf = true) (hpc : s.pc = p.succ)
    (hfits : CauseFits c p (s.mem.read p)) : (raiseHalt c s).Sound where
  memory := hmem
  running := nofun
  noRecord h := absurd rfl h
  waiting := nofun
  record _ := ⟨p, c, hpc, rfl, rfl, hfits⟩

/-- The end-of-memory check makes a RUNNING state sound, whatever its `pc` (R87, R92). -/
theorem sound_endCheck {s : State} (hmem : s.mem.wf = true) (hstatus : s.status = RunStatus.runningStatus) :
    (endCheck s).Sound := by
  obtain ⟨-, hend, hfires⟩ | ⟨hno, hsame⟩ := endCheck_cases s
  · rw [hfires]
    exact sound_raiseHalt (p := 99) hmem hend rfl
  · have hne : s.pc ≠ 100 := fun hend => hno ⟨by rw [hstatus]; rfl, hend⟩
    rw [hsame]
    exact sound_of_running hmem hstatus (Nat.le_of_lt_succ (Fin.val_lt_last hne))

/-- Before the halt, the status is its phase alone (R29). -/
theorem State.Sound.status_eq {s : State} (hs : s.Sound) (h : s.status.phase ≠ .halted) :
    s.status = ⟨s.status.phase, none, none⟩ := by
  obtain ⟨haddr, hcause⟩ := hs.noRecord h
  rw [← haddr, ← hcause]

/-- A sound RUNNING state has a cell to fetch from (R92). -/
theorem State.Sound.exists_pc {s : State} (hs : s.Sound) (hrun : s.status.phase = .running) :
    ∃ p : Addr, s.pc = p.castSucc :=
  ⟨⟨s.pc.val, Nat.lt_succ_of_le (hs.running hrun)⟩, rfl⟩

/-! ### Reset and load -/

/-- Settles O39: a loaded state is RUNNING at cell 0 with no halt record, and the cells of an image are laid out in
canonical form. -/
theorem loadedStatesAreSound : Obligations.LoadedStatesAreSound := by
  refine ⟨sound_of_running reset_mem_wf rfl (Nat.zero_le _), fun image s hload => ?_⟩
  obtain hfits | hlong := le_or_gt image.length 100
  · rw [load_of_length_le hfits] at hload
    obtain rfl := Option.some.inj hload
    exact sound_of_running (Memory.wf_ofImage 0 image) rfl (Nat.zero_le _)
  · rw [load_of_length_gt hlong] at hload
    cases hload

/-! ### Steps -/

theorem exec_mem_wf {i : Instr} {s t : State} (hmem : s.mem.wf = true) (h : exec i s = .next t) :
    t.mem.wf = true := by
  rw [exec_mem h]
  cases storeAddr i with
  | none => exact hmem
  | some a => exact Memory.wf_write s.mem a s.acc hmem

theorem causeFits_of_raisesHalt {c : HaltCause} {w : Word} (p : Addr) (h : RaisesHalt c w) : CauseFits c p w := by
  cases c with
  | noMore => exact h.elim
  | haltCmd | negInstr | badInstr => exact h

/-- The cycle step keeps soundness: the ending of the fetched word says which phase follows. -/
theorem sound_endCheck_of_exec {s t : State} {p : Addr} (hs : s.Sound) (hrun : s.status.phase = .running)
    (h : exec (decode (s.mem.read p)) (s.advance p) = .next t) : (endCheck t).Sound := by
  have hstatus : s.status = RunStatus.runningStatus :=
    (hs.status_eq (by rw [hrun]; exact nofun)).trans (by rw [hrun]; rfl)
  have hmem : t.mem.wf = true := exec_mem_wf (s := s.advance p) hs.memory h
  obtain ⟨c, hword, rfl⟩ | ⟨hword, rfl⟩ | ⟨-, a, rfl⟩ | ⟨-, -, hsame⟩ := exec_decode_endsAs h
  · rw [endCheck_raiseHalt]
    exact sound_raiseHalt (p := p) hmem rfl (causeFits_of_raisesHalt p hword)
  · rw [endCheck_setPhase_waitInput]
    exact sound_of_waiting (p := p) hmem (by simp [hstatus]) rfl hword
  · exact sound_endCheck hmem hstatus
  · exact sound_endCheck hmem (hsame.trans hstatus)

/-- The invariant does not speak of the channel. -/
theorem State.Sound.withChannel {s : State} (hs : s.Sound) (answers : List Answer) :
    ({ s with channel := answers } : State).Sound :=
  ⟨hs.memory, hs.running, hs.noRecord, hs.waiting, hs.record⟩

/-- The input step keeps soundness: a word ends the wait in the check of the INP's invocation. -/
theorem sound_inputStep {s : State} (ans : Answer) (hs : s.Sound) (hwait : s.status.phase = .waitInput) :
    (inputStep ans s).Sound := by
  cases ans with
  | malformed => exact hs
  | word v =>
    have hstatus := hs.status_eq (by rw [hwait]; exact nofun)
    exact sound_endCheck hs.memory (by rw [State.setPhase_status, State.setAcc_status, hstatus]; rfl)

/-- Settles O40: one lemma per kind of step. -/
theorem stepKeepsSoundness : Obligations.StepKeepsSoundness := by
  intro s s' hs h
  obtain ⟨hrun, p, t, -, hexec, rfl⟩ | ⟨-, -, rfl⟩ | ⟨hwait, ans, rest, -, rfl⟩ := step_cases h
  · exact sound_endCheck_of_exec hs hrun hexec
  · exact hs
  · exact sound_inputStep ans (hs.withChannel rest) hwait

/-! ### Runs -/

theorem State.Sound.exists_step {s : State} (hs : s.Sound) (h : s.status.phase ≠ .halted) :
    ∃ t, step s = .next t ∧ t.Sound := by
  have hstep : ∃ t, step s = .next t := by
    cases hphase : s.status.phase with
    | running =>
      obtain ⟨p, hpc⟩ := hs.exists_pc hphase
      obtain ⟨t, -, hstep⟩ := exists_exec_step hphase hpc
      exact ⟨_, hstep⟩
    | waitInput => exact ⟨_, step_waiting hphase⟩
    | halted => exact absurd hphase h
  obtain ⟨t, ht⟩ := hstep
  exact ⟨t, ht, stepKeepsSoundness s t hs ht⟩

theorem run_succ_of_refused (k : Nat) {s : State} {r : Refusal} (h : step s = .refused r) :
    Host.Core.run Sys2Proof.core (k + 1) s = .refused r := by
  have h' : Sys2Proof.core.step s = .refused r := h
  simp only [Host.Core.run, h']

/-- Settles O41: induction on the number of steps. A state before the halt takes its step into a sound state; a halted one
is where the run is refused. -/
theorem soundRunsNeverFault : Obligations.SoundRunsNeverFault := by
  intro n
  induction n with
  | zero => exact fun s hs => .inl ⟨s, rfl, hs⟩
  | succ n ih =>
    intro s hs
    by_cases hhalted : s.status.phase = .halted
    · exact .inr ⟨run_succ_of_refused n (step_halted hhalted), 0, s, n.succ_pos, rfl, hs, hhalted⟩
    · obtain ⟨s', hstep, hs'⟩ := hs.exists_step hhalted
      rw [run_succ n hstep]
      obtain hnext | ⟨hrefused, k, t, hk, hrun, ht⟩ := ih s' hs'
      · exact .inl hnext
      · exact .inr ⟨hrefused, k + 1, t, Nat.succ_lt_succ hk, (run_succ k hstep).trans hrun, ht⟩

end Sys2Proof.Machine
end

section
/-! The host's reading of numbered bits (log 7, log 8) and the loader's range check (spec/92_eei_decisions.md D18). -/

namespace Sys2Proof

theorem Word.ofInt?_eq_none {i : Int} (h : i < -999 ∨ 999 < i) : Word.ofInt? i = none :=
  dif_neg (by omega)

/-- The 16 bits of a word in two's complement stand for that word (log 7). -/
theorem wordOfBits_twosComplement {w : Word} {n : Nat}
    (hn : (n : Int) = if 0 ≤ w.val then w.val else w.val + 65536) : wordOfBits 16 n = some w := by
  have hw := w.property
  have hvalue : (if 2 * (n % 65536) < 65536 then ((n % 65536 : Nat) : Int)
      else ((n % 65536 : Nat) : Int) - (65536 : Nat)) = w.val := by
    split_ifs at hn ⊢ <;> omega
  exact (congrArg Word.ofInt? hvalue).trans (Machine.Token.word?_integer_val w)

end Sys2Proof

namespace Sys2Proof.Machine

/-! ### A word placed where the next step fetches -/

theorem State.withFetchWord_of_wordOfBits {nbits n : Nat} {w : Word} (s : State) (h : wordOfBits nbits n = some w) :
    s.withFetchWord nbits n = s.readyToRun w := by
  rw [State.withFetchWord, h]

/-- `readyToRun` at the cell that a fetch would read, cell 0 where there is none: RUNNING at that cell, which holds the
word (log 8). -/
theorem readyToRun_runsAt (s : State) (w : Word) : RunsAt (s.readyToRun w) ((fetchAddr s.pc).getD 0) w.val :=
  ⟨rfl, rfl, congrArg Subtype.val (Memory.read_write_same ..)⟩

theorem pc_eq_castSucc_of_le {pc : PcVal} (h : pc.val ≤ 99) : pc = ((fetchAddr pc).getD 0).castSucc := by
  obtain ⟨p, rfl⟩ : ∃ p : Addr, pc = p.castSucc := ⟨⟨pc.val, Nat.lt_succ_of_le h⟩, rfl⟩
  rw [fetchAddr_castSucc, Option.getD_some]

/-- Settles O6: the bits stand for the word, which `readyToRun` writes to the one cell it sets `pc` to. -/
theorem fetchWordRunsItsInstruction : Obligations.FetchWordRunsItsInstruction := by
  intro s w n hn
  have hbits := wordOfBits_twosComplement hn
  refine ⟨congrArg (Option.map decode) hbits, (fetchAddr s.pc).getD 0, ?_⟩
  rw [s.withFetchWord_of_wordOfBits hbits]
  exact ⟨readyToRun_runsAt s w, pc_eq_castSucc_of_le, fun b hb => Memory.read_write_other _ _ hb, rfl, rfl, rfl, rfl⟩

/-! ### Load -/

/-- Settles O10: a token outside the word range has no word. -/
theorem loadTokensRefuseOutOfRange : Obligations.LoadTokensRefuseOutOfRange :=
  fun _ _ hfits hmem hrange => loadTokens_of_word?_eq_none hfits hmem (Word.ofInt?_eq_none hrange)

/-- Settles O8: every field of `State.reset` is the value stated, and the empty image lays out no cells. -/
theorem resetStateFields : Obligations.ResetStateFields :=
  ⟨rfl, rfl, fun _ => rfl, rfl, rfl, rfl, rfl, rfl⟩

end Sys2Proof.Machine
end

section
/-! Steps of the branches (spec/44_branch.md R140 to R142). -/

namespace Sys2Proof.Machine

/-- Settles O17: opcode digit 6 is BRA, a jump, after which the end-of-memory check never fires. A jump to the cell it was
fetched from undoes the advance. -/
theorem braStep : Obligations.BraStep := by
  intro s p a ⟨hrun, hpc, hval⟩
  refine ⟨(s.advance p).jump a, ?step, rfl, ⟨rfl, rfl, rfl, fun _ => rfl, rfl, rfl⟩, ?self⟩
  case step => rw [step_running_val 6 a hrun hpc hval (exec_bra a _), endCheck_jump]
  case self =>
    rintro rfl
    rw [State.jump, ← hpc, State.advance]

/-- A step from cell `p` on a word whose meaning is a jump on the condition `c`: taken it goes to `a` with the status as it
was, not taken it falls through, and `acc`, the cells, the output and the parameters are unchanged (R143). -/
theorem step_jump_if {s : State} {p : Addr} {w : Int} {c : Prop} [Decidable c] (o : Fin 10) (a : Addr)
    (h : RunsAt s p w) (hw : w = 100 * (o.val : Int) + (a.val : Int))
    (hexec : exec (decodeDigits o.val a) (s.advance p) = .next (if c then (s.advance p).jump a else s.advance p)) :
    ∃ t, step s = .next t ∧ t.acc = s.acc ∧ t.out = s.out ∧ SameCells s t ∧ SameParams s t ∧
      (c → t.pc.val = a.val ∧ t.status = s.status) ∧ (¬c → FallsThrough s p t) := by
  obtain ⟨hrun, hpc, hval⟩ := h
  refine ⟨_, step_running_val o a hrun hpc (hval.trans hw) hexec, ?_⟩
  by_cases hc : c
  case pos =>
    rw [if_pos hc, endCheck_jump]
    exact ⟨rfl, rfl, fun _ => rfl, ⟨rfl, rfl⟩, fun _ => ⟨rfl, rfl⟩, absurd hc⟩
  case neg =>
    rw [if_neg hc]
    exact ⟨endCheck_acc _, endCheck_out _, fun b => congrArg (Memory.read · b) (endCheck_mem _),
      ⟨endCheck_channel _, endCheck_otcTable _⟩, fun h => absurd h hc, fun _ => fallsThrough_endCheck hrun rfl rfl⟩

/-- Settles O18: opcode digit 7 is BRZ, a jump on `acc = 0`. -/
theorem brzStep : Obligations.BrzStep := fun s p a h => step_jump_if 7 a h rfl (exec_brz a (s.advance p))

/-- Settles O19: opcode digit 8 is BRP, a jump on `acc >= 0`. -/
theorem brpStep : Obligations.BrpStep := by
  intro s p a h
  obtain ⟨t, hstep, hacc, hout, hcells, hparams, htaken, hnot⟩ := step_jump_if 8 a h rfl (exec_brp a (s.advance p))
  exact ⟨t, hstep, hacc, hout, hcells, hparams, htaken, fun hneg => hnot hneg.not_ge⟩

end Sys2Proof.Machine
end

section
/-! Characters on the output record and the wait of INP (spec/45_io.md R161 to R166). -/

namespace Sys2Proof.Machine

/-! ### OUT -/

theorem exec_out (s : State) : exec .out s = .next (s.append (outToken s.acc)) := exec_eq .out s

/-- Settles O29: word 902 is OUT, whose meaning appends the token of `acc`, the decimal text and one space. -/
theorem outInstruction : Obligations.OutInstruction :=
  ⟨fun w hw => decode_of_val w 9 2 hw, fun s => ⟨_, exec_out s, rfl, onlyOut_append ..⟩,
    fun s p h => step_append 9 2 h rfl (exec_out (s.advance p))⟩

/-- The values of the digits that `decDigits` writes, most significant first: no leading zero but for 0 itself, and they
are the number. -/
theorem exists_digits_of_decDigits {n : Nat} (hn : n < 1000) :
    ∃ ds : List Nat, decDigits n = ds.map Nat.digitChar ∧ ds ≠ [] ∧ (∀ d ∈ ds, d ≤ 9) ∧
      (ds.head? = some 0 → ds = [0]) ∧ Nat.ofDigits 10 ds.reverse = n := by
  unfold decDigits
  split_ifs with h10 h100
  · refine ⟨[n], rfl, nofun, ?_⟩
    simp
    omega
  · refine ⟨[n / 10, n % 10], rfl, nofun, ?_⟩
    simp [Nat.ofDigits_cons]
    omega
  · refine ⟨[n / 100, n / 10 % 10, n % 10], rfl, nofun, ?_⟩
    simp [Nat.ofDigits_cons]
    omega

/-- Settles O30: `dec` writes the digits of the absolute value, which is below 1000, behind the sign. -/
theorem decIsTheRawDecimal : Obligations.DecIsTheRawDecimal := by
  intro v
  have hv := v.property
  obtain ⟨ds, hdigits, hspec⟩ := exists_digits_of_decDigits (n := v.val.natAbs) (by omega)
  refine ⟨ds, ?_, hspec⟩
  rw [dec, hdigits]
  split_ifs <;> rfl

/-! ### OTC_MAP -/

/-- The default map's code point (R166): every number below 256 is one. -/
theorem otcDefault_toNat (v : Word) : ((otcDefault v).toNat : Int) = v.val % 256 := by
  have hvalid : (v.val % 256).toNat.isValidChar := .inl (by omega)
  rw [otcDefault, Char.toNat_ofNat, if_pos hvalid]
  omega

/-- Outside [0, 255] the table comes first (log 6). -/
theorem otcMap_of_outside (table : List (Word × Char)) {v : Word} (h : v.val < 0 ∨ 255 < v.val) :
    otcMap table v = (table.lookup v).getD (otcDefault v) := if_neg (by omega)

/-- Settles O32: in [0, 255] the map is its default, whose residue is the value itself; outside, the table's entry or the
default. -/
theorem otcMapValues : Obligations.OtcMapValues := by
  refine fun table v => ⟨fun hlo hhi => ?_, fun hout hnone => ?_, fun c hout hsome => ?_⟩
  · rw [otcMap, if_pos ⟨hlo, hhi⟩, otcDefault_toNat]
    omega
  · rw [otcMap_of_outside table hout, hnone, Option.getD_none, otcDefault_toNat]
  · rw [otcMap_of_outside table hout, hsome, Option.getD_some]

/-! ### The wait of INP -/

/-- Settles O28: the step of the wait on an empty channel. -/
theorem waitsWithoutAnAnswer : Obligations.WaitsWithoutAnAnswer :=
  fun _ hwait hempty => (step_waiting hwait).trans (congrArg _ (awaitAnswer_nil hempty))

/-- While the answers are malformed, each step of the wait takes one, past their end none, and changes nothing else. -/
theorem run_malformed (k : Nat) {s : State} (hwait : s.status.phase = .waitInput)
    (hanswers : ∀ ans ∈ s.channel.take k, ans = .malformed) :
    Host.Core.run Sys2Proof.core k s = .next { s with channel := s.channel.drop k } := by
  induction k generalizing s with
  | zero => rfl
  | succ k ih =>
    cases hch : s.channel with
    | nil =>
      rw [run_succ k (waitsWithoutAnAnswer s hwait hch), ih hwait (by simp [hch]), hch, List.drop_nil, List.drop_nil]
    | cons ans rest =>
      rw [hch, List.take_succ_cons, List.forall_mem_cons] at hanswers
      obtain ⟨rfl, hrest⟩ := hanswers
      rw [run_succ k (step_answer hwait hch), List.drop_succ_cons]
      exact ih hwait hrest

theorem exists_step_of_run_succ {k : Nat} {s t : State} (h : Host.Core.run Sys2Proof.core (k + 1) s = .next t) :
    ∃ s', step s = .next s' ∧ Host.Core.run Sys2Proof.core k s' = .next t := by
  cases hs : step s with
  | next s' => exact ⟨s', rfl, run_succ k hs ▸ h⟩
  | refused r =>
    rw [run_succ_of_refused k hs] at h
    cases h
  | fault r =>
    have hs' : Sys2Proof.core.step s = .fault r := hs
    simp only [Host.Core.run, hs'] at h
    cases h

/-- A run takes its last step after the others. -/
theorem run_succ_last {k : Nat} {s t u : State} (hrun : Host.Core.run Sys2Proof.core k s = .next t)
    (hstep : step t = .next u) : Host.Core.run Sys2Proof.core (k + 1) s = .next u := by
  induction k generalizing s with
  | zero =>
    cases hrun
    exact run_succ 0 hstep
  | succ k ih =>
    obtain ⟨s', hs, hrun'⟩ := exists_step_of_run_succ hrun
    exact (run_succ (k + 1) hs).trans (ih hrun')

theorem stepOutcome_of_running {s : State} (h : s.status.phase = .running) : s.stepOutcome = some .continues := by
  simp [State.stepOutcome, h]

theorem stepOutcome_of_waiting {s : State} (h : s.status.phase = .waitInput) : s.stepOutcome = none := by
  simp [State.stepOutcome, h]

theorem stepOutcome_of_haltedWith {s : State} {addr : PcVal} {c : HaltCause} (h : s.HaltedWith addr c) :
    s.stepOutcome = some (.halted addr c) := by
  obtain ⟨hhalted, haddr, hcause⟩ := h
  simp [State.stepOutcome, hhalted, haddr, hcause]

/-- The outcome of the input step that takes a word: the end-of-memory check decides it (R88, R161). -/
theorem stepOutcome_endCheck_of_running {s : State} (hrun : s.status.phase = .running) :
    (endCheck s).stepOutcome = some (if s.pc = 100 then .halted 100 .noMore else .continues) := by
  split_ifs with hend
  · exact stepOutcome_of_haltedWith (haltedWith_endCheck_of_pc_eq hrun (congrArg Fin.val hend))
  · rw [endCheck_of_pc_le (Nat.le_of_lt_succ (Fin.val_lt_last hend))]
    exact stepOutcome_of_running hrun

/-- Settles O27: `run_malformed` is the wait. Where a word follows `n` malformed answers it is the first answer of the state
after `n` steps, and step `n + 1` takes it. -/
theorem inpRetriesUntilAWord : Obligations.InpRetriesUntilAWord := by
  refine ⟨fun n s v rest hwait hch => ?word, fun k s hwait hall => ?noWord⟩
  case word =>
    have hretry (k : Nat) (hk : k ≤ n) :
        Host.Core.run Sys2Proof.core k s = .next { s with channel := s.channel.drop k } := by
      refine run_malformed k hwait fun ans hans => ?_
      rw [hch, List.take_append_of_le_length (by simpa using hk)] at hans
      exact List.eq_of_mem_replicate (List.mem_of_mem_take hans)
    refine ⟨fun k hk => ⟨hretry k hk, stepOutcome_of_waiting hwait⟩, ?_⟩
    have hfirst : s.channel.drop n = .word v :: rest := by rw [hch, List.drop_left' List.length_replicate]
    exact ⟨_, run_succ_last (hretry n le_rfl) (step_word hwait hfirst), endCheck_acc _, endCheck_channel _, endCheck_pc _,
      endCheck_out _, fun b => congrArg (Memory.read · b) (endCheck_mem _), stepOutcome_endCheck_of_running rfl⟩
  case noWord =>
    exact ⟨_, run_malformed k hwait fun ans hans => hall ans (List.mem_of_mem_take hans), rfl, rfl, rfl, rfl,
      fun _ => rfl⟩

end Sys2Proof.Machine
end

section
/-! The cycle engine and the block interface (spec/40_cycle_engine.md R82 to R96, spec/60_exceptions.md R180). -/

namespace Sys2Proof.Machine

/-- Settles O25: the table evaluated at the four causes. -/
theorem haltCauseTable : Obligations.HaltCauseTable := by
  unfold Obligations.HaltCauseTable
  decide

/-! ### The step -/

/-- Settles O33: `exec` always answers a next state, and the two clauses on the check are its two cases. -/
theorem stepRunsTheDecodedInstruction : Obligations.StepRunsTheDecodedInstruction := by
  intro s p hrun hpc
  obtain ⟨t, hexec, hstep⟩ := exists_exec_step hrun hpc
  refine ⟨t, hexec, hstep, fun htrun hend => ?fires, fun hno => if_neg ?quiet⟩
  case fires =>
    rw [endCheck, if_pos ⟨htrun, hend⟩]
    exact ⟨haltedWith_raiseHalt .noMore t, onlyStatus_raiseHalt .noMore t⟩
  case quiet => exact fun ⟨htrun, hend⟩ => hno.elim (· htrun) hend.not_ge

/-- Settles O35: the step answers something else in WAIT_INPUT, in HALTED, and in RUNNING at a cell. -/
theorem onlyPc100Faults : Obligations.OnlyPc100Faults := by
  refine fun s f => ⟨fun h => ?_, fun ⟨hf, hrun, hpc⟩ => hf ▸ step_outside hrun (Fin.ext hpc)⟩
  cases hphase : s.status.phase with
  | halted => exact nomatch (step_halted hphase).symm.trans h
  | waitInput => exact nomatch (step_waiting hphase).symm.trans h
  | running =>
    obtain ⟨p, hpc⟩ | hpc := s.pc.eq_castSucc_or_eq_last
    · obtain ⟨t, -, hstep⟩ := exists_exec_step hphase hpc
      exact nomatch hstep.symm.trans h
    · cases (step_outside hphase hpc).symm.trans h
      exact ⟨rfl, rfl, congrArg Fin.val hpc⟩

/-! ### Ports -/

theorem inReq_iff (s : State) : s.inReq = true ↔ s.status.phase = .waitInput := decide_eq_true_iff

theorem inReq_eq_false {s : State} (h : s.status.phase ≠ .waitInput) : s.inReq = false := decide_eq_false h

theorem inAns_of_waiting {s : State} (ans : Answer) (h : s.status.phase = .waitInput) :
    inAns ans s = inputStep ans s := if_pos ((inReq_iff s).2 h)

theorem inAns_of_not_waiting {s : State} (ans : Answer) (h : s.status.phase ≠ .waitInput) : inAns ans s = s :=
  if_neg ((inReq_iff s).not.2 h)

theorem stepReq_of_running {s : State} (h : s.status.phase = .running) : stepReq s = step s := by
  simp [stepReq, step, engineStep, h]

theorem stepReq_of_not_running {s : State} (h : s.status.phase ≠ .running) : stepReq s = .next s := by
  unfold stepReq
  split
  · exact absurd ‹_› h
  · rfl
  · rfl

/-- Settles O34: the engine has no step in HALTED, and neither port is honoured there. -/
theorem haltedIsFinal : Obligations.HaltedIsFinal := fun s h =>
  ⟨step_halted h, stepReq_of_not_running (by rw [h]; exact nofun),
    fun ans => inAns_of_not_waiting ans (by rw [h]; exact nofun)⟩

/-- Settles O36: `step_req` is honoured in RUNNING alone, `in_ans` in WAIT_INPUT alone, where the step on the channel's next
answer is the input step too. -/
theorem portsFollowThePhase : Obligations.PortsFollowThePhase := by
  refine ⟨fun s h => ?running, fun s h => ?waiting, fun s ans rest h hch => ?answer, fun s h => ?halted⟩
  case running =>
    have hne : s.status.phase ≠ .waitInput := by rw [h]; exact nofun
    exact ⟨stepReq_of_running h, inReq_eq_false hne, fun ans => inAns_of_not_waiting ans hne⟩
  case waiting => exact ⟨stepReq_of_not_running (by rw [h]; exact nofun), (inReq_iff s).2 h⟩
  case answer => rw [step_answer h hch, inAns_of_waiting (s := { s with channel := rest }) ans h]
  case halted => exact inReq_eq_false (by rw [h]; exact nofun)

/-- Settles O37: the state after the step is sound, so in HALTED its record holds `pc` and a cause. -/
theorem outcomeReportsTheStep : Obligations.OutcomeReportsTheStep := by
  refine fun s t hs h => ⟨stepOutcome_of_running, stepOutcome_of_waiting, fun hhalted => ?_⟩
  obtain ⟨p, c, -, haddr, hcause, -⟩ := (stepKeepsSoundness s t hs h).record hhalted
  exact ⟨c, hcause, stepOutcome_of_haltedWith ⟨hhalted, haddr, hcause⟩⟩

/-- Settles O38: the cells of the view are the reads at the addresses in order. -/
theorem viewShowsTheState : Obligations.ViewShowsTheState := by
  refine fun s => ⟨rfl, rfl, rfl, ?length, fun a => ?cell⟩
  case length => simp [State.view]
  case cell => simp [State.view]

/-! ### Memory as data -/

theorem Memory.read_head (k : Addr) (v : Word) (rest : Memory) : Memory.read ((k, v) :: rest) k = v := if_pos rfl

/-- Below its first address a memory with rising addresses is unlisted. -/
theorem Memory.read_of_lt_head {k a : Addr} {v : Word} {rest : Memory} (hwf : Memory.wf ((k, v) :: rest) = true)
    (ha : a < k) : Memory.read ((k, v) :: rest) a = unlistedWord := by
  obtain ⟨-, hk, -⟩ := (Memory.wf_cons_iff k v rest).1 hwf
  refine Memory.read_absent _ a fun c hc => ?_
  obtain rfl | hc := List.mem_cons.1 hc
  · exact ha.ne'
  · exact (ha.trans (hk c hc)).ne'

/-- The first address of a canonical memory is not below that of another that reads alike: its word would be unlisted
there. -/
theorem Memory.head_le_head {k k' : Addr} {v v' : Word} {rest rest' : Memory}
    (hwf : Memory.wf ((k, v) :: rest) = true) (hwf' : Memory.wf ((k', v') :: rest') = true)
    (hread : ∀ a, Memory.read ((k, v) :: rest) a = Memory.read ((k', v') :: rest') a) : k' ≤ k := by
  obtain ⟨hv, -, -⟩ := (Memory.wf_cons_iff k v rest).1 hwf
  by_contra hlt
  have hunlisted := Memory.read_of_lt_head hwf' (not_le.1 hlt)
  rw [← hread, Memory.read_head] at hunlisted
  exact hv hunlisted

/-- A canonical memory that is not empty has a listed cell. -/
theorem Memory.eq_nil_of_read {m : Memory} (hwf : m.wf = true) (hread : ∀ a, m.read a = unlistedWord) : m = [] := by
  match m with
  | [] => rfl
  | (k, v) :: rest =>
    obtain ⟨hv, -, -⟩ := (Memory.wf_cons_iff k v rest).1 hwf
    exact absurd ((Memory.read_head k v rest).symm.trans (hread k)) hv

/-- The cells past the first address determine the reads of the rest of a canonical memory. -/
theorem Memory.read_rest {k : Addr} {v : Word} {rest : Memory} (hwf : Memory.wf ((k, v) :: rest) = true) (a : Addr) :
    rest.read a = if a = k then unlistedWord else Memory.read ((k, v) :: rest) a := by
  obtain ⟨-, hk, -⟩ := (Memory.wf_cons_iff k v rest).1 hwf
  split_ifs with ha
  · exact Memory.read_absent rest a fun c hc => ha ▸ (hk c hc).ne'
  · exact (if_neg (Ne.symm ha)).symm

/-- Settles O42: induction on the first list. Where neither is empty their first addresses agree, so their first words do,
and so do the reads of what is left. -/
theorem canonicalMemoriesAreEqualData : Obligations.CanonicalMemoriesAreEqualData := by
  intro m
  induction m with
  | nil => exact fun m' _ hwf' hread => (Memory.eq_nil_of_read hwf' fun a => (hread a).symm).symm
  | cons c rest ih =>
    obtain ⟨k, v⟩ := c
    intro m' hwf hwf' hread
    match m' with
    | [] => exact Memory.eq_nil_of_read hwf hread
    | (k', v') :: rest' =>
      obtain rfl : k = k' :=
        le_antisymm (Memory.head_le_head hwf' hwf fun a => (hread a).symm) (Memory.head_le_head hwf hwf' hread)
      obtain rfl : v = v' := by simpa only [Memory.read_head] using hread k
      obtain ⟨-, -, hrest⟩ := (Memory.wf_cons_iff k v rest).1 hwf
      obtain ⟨-, -, hrest'⟩ := (Memory.wf_cons_iff k v rest').1 hwf'
      rw [ih rest' hrest hrest' fun a => by rw [Memory.read_rest hwf, Memory.read_rest hwf', hread]]

end Sys2Proof.Machine
end

section
/-! Whole-machine rules (spec/10_state.md R21 to R31): what writes `pc`, `acc` and the output record, and what no step
reads. -/

namespace Sys2Proof.Machine

/-! ### The writers of `pc` and `acc` -/

/-- An execute part leaves the advanced `pc`, or is a branch that was taken, to its operand (R143). -/
theorem exec_pc_of_branch {i : Instr} {s t : State} (h : exec i s = .next t) :
    t.pc = s.pc ∨ ∃ a : Addr, t.pc.val = a.val ∧
      (i = .bra a ∨ (i = .brz a ∧ s.acc.val = 0) ∨ (i = .brp a ∧ 0 ≤ s.acc.val)) := by
  cases i
  case bra a =>
    cases (exec_bra a s).symm.trans h
    exact .inr ⟨a, rfl, .inl rfl⟩
  case brz a =>
    cases (exec_brz a s).symm.trans h
    split
    case isTrue hzero => exact .inr ⟨a, rfl, .inr (.inl ⟨rfl, hzero⟩)⟩
    case isFalse => exact .inl rfl
  case brp a =>
    cases (exec_brp a s).symm.trans h
    split
    case isTrue hnonneg => exact .inr ⟨a, rfl, .inr (.inr ⟨rfl, hnonneg⟩)⟩
    case isFalse => exact .inl rfl
  all_goals
    cases (exec_eq _ s).symm.trans h
    exact .inl rfl

/-- An execute part leaves `acc`, or is ADD, SUB or LDA (R23). -/
theorem exec_acc {i : Instr} {s t : State} (h : exec i s = .next t) :
    t.acc = s.acc ∨ ∃ a, i = .add a ∨ i = .sub a ∨ i = .lda a := by
  cases i
  case add a => exact .inr ⟨a, .inl rfl⟩
  case sub a => exact .inr ⟨a, .inr (.inl rfl)⟩
  case lda a => exact .inr ⟨a, .inr (.inr rfl)⟩
  case brz | brp =>
    cases (exec_eq _ s).symm.trans h
    dsimp only
    split <;> exact .inl rfl
  all_goals
    cases (exec_eq _ s).symm.trans h
    exact .inl rfl

/-- A step from RUNNING at a cell is its instruction's execute part and the end-of-memory check (R82). -/
theorem eq_endCheck_of_step {s t : State} {p : Addr} (hrun : s.status.phase = .running) (hpc : s.pc = p.castSucc)
    (h : step s = .next t) :
    ∃ u, exec (decode (s.mem.read p)) (s.advance p) = .next u ∧ t = endCheck u := by
  obtain ⟨u, hexec, hstep⟩ := exists_exec_step hrun hpc
  cases hstep.symm.trans h
  exact ⟨u, hexec, rfl⟩

/-- Settles O44: the check writes no `pc`, and the execute part writes it in a taken branch alone. -/
theorem pcIsAdvancedOrBranched : Obligations.PcIsAdvancedOrBranched := by
  intro s t p hrun hpc h
  obtain ⟨u, hexec, rfl⟩ := eq_endCheck_of_step hrun hpc h
  rw [endCheck_pc]
  exact exec_pc_of_branch hexec

/-- Settles O45: a cycle step writes `acc` in its execute part alone, an input step where the answer is a word. -/
theorem accIsWrittenOnlyByAddSubLdaInp : Obligations.AccIsWrittenOnlyByAddSubLdaInp := by
  intro s s' h hne
  obtain ⟨hrun, p, t, hpc, hexec, rfl⟩ | ⟨-, -, rfl⟩ | ⟨hwait, ans, rest, hch, rfl⟩ := step_cases h
  · rw [endCheck_acc] at hne
    obtain hsame | ⟨a, hwriter⟩ := exec_acc hexec
    · exact absurd hsame hne
    · exact .inl ⟨hrun, p, a, hpc, hwriter⟩
  · exact absurd rfl hne
  · cases ans with
    | malformed => exact absurd rfl hne
    | word v => exact .inr ⟨hwait, rest, by rw [hch, inputStep, endCheck_acc]; rfl⟩

/-! ### The input step -/

@[simp] theorem inputStep_pc (ans : Answer) (s : State) : (inputStep ans s).pc = s.pc := by
  cases ans <;> simp [inputStep]

@[simp] theorem inputStep_out (ans : Answer) (s : State) : (inputStep ans s).out = s.out := by
  cases ans <;> simp [inputStep]

@[simp] theorem inputStep_otcTable (ans : Answer) (s : State) : (inputStep ans s).otcTable = s.otcTable := by
  cases ans <;> simp [inputStep]

@[simp] theorem inputStep_channel (ans : Answer) (s : State) : (inputStep ans s).channel = s.channel := by
  cases ans <;> simp [inputStep]

/-- Settles O51: a step of the wait writes neither `pc`, memory nor output; after a word the end-of-memory check decides by
`pc` whether the engine runs on. -/
theorem waitStepTransitions : Obligations.WaitStepTransitions := by
  intro s s' hwait h
  obtain ⟨hrun, -⟩ | ⟨-, -, rfl⟩ | ⟨-, ans, rest, -, rfl⟩ := step_cases h
  · exact nomatch hrun.symm.trans hwait
  · exact ⟨rfl, rfl, fun _ => rfl, .inl ⟨rfl, rfl⟩⟩
  · refine ⟨inputStep_pc .., inputStep_out .., fun b => congrArg (Memory.read · b) (inputStep_mem ..), ?_⟩
    cases ans with
    | malformed => exact .inl ⟨rfl, rfl⟩
    | word v =>
      obtain hpc | hpc := Nat.lt_succ_iff_lt_or_eq.1 s.pc.isLt
      · have hle : s.pc.val ≤ 99 := Nat.le_of_lt_succ hpc
        exact .inr (.inl ⟨hle, by rw [inputStep, endCheck_of_pc_le]; exacts [rfl, hle]⟩)
      · exact .inr (.inr ⟨hpc, haltedWith_endCheck_of_pc_eq rfl hpc⟩)

/-! ### The output record -/

/-- What the instruction appends to the output record in the state `s` (R163, R165). -/
def appendedBy (i : Instr) (s : State) : List Char :=
  match i with
  | .out => outToken s.acc
  | .otc => [otcMap s.otcTable s.acc]
  | _ => []

theorem eq_out_or_otc_of_appendedBy_ne_nil {i : Instr} {s : State} (h : appendedBy i s ≠ []) : i = .out ∨ i = .otc := by
  cases i
  case out => exact .inl rfl
  case otc => exact .inr rfl
  all_goals exact absurd rfl h

theorem outChars_eq {s t : State} {chars : List Char} (h : t.out = s.out ++ chars) : outChars s t = chars := by
  rw [outChars, h, List.drop_left]

/-! ### What no step reads -/

/-- `s` with another output record and other parameters. -/
def State.withSides (s : State) (o : List Char) (answers : List Answer) (table : List (Word × Char)) : State :=
  { s with out := o, channel := answers, otcTable := table }

/-- An execute part does the same whatever the output record and the channel, and, but for OTC, whatever the table: it
appends the same characters and leaves the parameters. -/
theorem exec_withSides {i : Instr} {s t : State} (h : exec i s = .next t) (o : List Char) (answers : List Answer)
    {table : List (Word × Char)} (htable : i = .otc → table = s.otcTable) :
    exec i (s.withSides o answers table) = .next (t.withSides (o ++ appendedBy i s) answers table) := by
  cases i
  case out =>
    cases (exec_out s).symm.trans h
    exact exec_out _
  case otc =>
    cases (exec_otc s).symm.trans h
    rw [htable rfl]
    exact exec_otc _
  case brz | brp =>
    cases (exec_eq _ s).symm.trans h
    simp only [appendedBy, List.append_nil, apply_ite (State.withSides · o answers table)]
    exact exec_eq _ _
  all_goals
    cases (exec_eq _ s).symm.trans h
    simp only [appendedBy, List.append_nil]
    exact exec_eq _ _

theorem endCheck_withSides (s : State) (o : List Char) (answers : List Answer) (table : List (Word × Char)) :
    endCheck (s.withSides o answers table) = (endCheck s).withSides o answers table :=
  (apply_ite (State.withSides · o answers table) _ (raiseHalt .noMore s) s).symm

theorem inputStep_withSides (ans : Answer) (s : State) (o : List Char) (answers : List Answer)
    (table : List (Word × Char)) :
    inputStep ans (s.withSides o answers table) = (inputStep ans s).withSides o answers table := by
  cases ans with
  | malformed => rfl
  | word v => exact endCheck_withSides ((s.setAcc v).setPhase .running) o answers table

/-- Taken with the state's own record and parameters, `exec_withSides` says what becomes of these. -/
theorem exec_sides {i : Instr} {s t : State} (h : exec i s = .next t) :
    t.out = s.out ++ appendedBy i s ∧ t.channel = s.channel ∧ t.otcTable = s.otcTable := by
  have hself := exec_withSides h s.out s.channel fun _ => rfl
  have heq : t = t.withSides (s.out ++ appendedBy i s) s.channel s.otcTable :=
    Host.Outcome.next.inj (h.symm.trans hself)
  exact ⟨congrArg State.out heq, (congrArg State.channel heq :), (congrArg State.otcTable heq :)⟩

/-- What a cycle step does to the output record and the parameters. -/
theorem step_sides {s s' : State} {p : Addr} (hrun : s.status.phase = .running) (hpc : s.pc = p.castSucc)
    (h : step s = .next s') :
    outChars s s' = appendedBy (decode (s.mem.read p)) (s.advance p) ∧ s'.out = s.out ++ outChars s s' ∧
      s'.channel = s.channel ∧ s'.otcTable = s.otcTable := by
  obtain ⟨t, hexec, rfl⟩ := eq_endCheck_of_step hrun hpc h
  obtain ⟨hout, hchannel, htable⟩ := exec_sides hexec
  have hchars := outChars_eq ((endCheck_out t).trans hout)
  exact ⟨hchars, (endCheck_out t).trans (hchars ▸ hout), (endCheck_channel t).trans hchannel,
    (endCheck_otcTable t).trans htable⟩

/-- A wait appends nothing. -/
theorem out_of_waiting {s s' : State} (hwait : s.status.phase = .waitInput) (h : step s = .next s') :
    outChars s s' = [] ∧ s'.out = s.out ++ outChars s s' := by
  obtain ⟨-, hout, -⟩ := waitStepTransitions s s' hwait h
  have hnone : s'.out = s.out ++ [] := by rw [hout, List.append_nil]
  rw [outChars_eq hnone]
  exact ⟨rfl, hnone⟩

/-- A step is a cycle step at a cell or an input step. -/
theorem running_or_waiting_of_step {s s' : State} (h : step s = .next s') :
    (s.status.phase = .running ∧ ∃ p : Addr, s.pc = p.castSucc) ∨ s.status.phase = .waitInput := by
  obtain ⟨hrun, p, -, hpc, -⟩ | ⟨hwait, -⟩ | ⟨hwait, -⟩ := step_cases h
  · exact .inl ⟨hrun, p, hpc⟩
  · exact .inr hwait
  · exact .inr hwait

/-- Settles O46: a cycle step appends what its instruction does, an input step nothing. -/
theorem outputIsAppendOnly : Obligations.OutputIsAppendOnly := by
  intro s s' h
  obtain ⟨hrun, p, hpc⟩ | hwait := running_or_waiting_of_step h
  · obtain ⟨hchars, hout, -⟩ := step_sides hrun hpc h
    exact ⟨hout, fun hne => ⟨hrun, p, hpc, eq_out_or_otc_of_appendedBy_ne_nil (hchars ▸ hne)⟩⟩
  · obtain ⟨hnil, hout⟩ := out_of_waiting hwait h
    exact ⟨hout, absurd hnil⟩

/-- A cycle step does the same whatever the output record and the channel, and, but for OTC, whatever the table. -/
theorem step_withSides_of_running {s s' : State} {p : Addr} (hrun : s.status.phase = .running)
    (hpc : s.pc = p.castSucc) (h : step s = .next s') (o : List Char) (answers : List Answer)
    {table : List (Word × Char)} (htable : decode (s.mem.read p) = .otc → table = s.otcTable) :
    step (s.withSides o answers table) = .next (s'.withSides (o ++ outChars s s') answers table) := by
  obtain ⟨hchars, -⟩ := step_sides hrun hpc h
  obtain ⟨t, hexec, rfl⟩ := eq_endCheck_of_step hrun hpc h
  rw [hchars, ← endCheck_withSides]
  exact step_running hrun hpc (exec_withSides hexec o answers htable)

/-- An input step does the same whatever the output record and the table. -/
theorem step_withSides_of_waiting {s s' : State} (hwait : s.status.phase = .waitInput) (h : step s = .next s')
    (o : List Char) (table : List (Word × Char)) :
    step (s.withSides o s.channel table) = .next (s'.withSides o s'.channel table) := by
  obtain ⟨hrun, -⟩ | ⟨-, hch, rfl⟩ | ⟨-, ans, rest, hch, rfl⟩ := step_cases h
  · exact nomatch hrun.symm.trans hwait
  · exact waitsWithoutAnAnswer (s'.withSides o s'.channel table) hwait hch
  · rw [hch, inputStep_channel, ← inputStep_withSides]
    exact step_answer (s := s.withSides o (ans :: rest) table) hwait rfl

/-- Settles O48: `step_withSides_of_running` at another channel, with the step's own record and table. -/
theorem cycleStepReadsNoAnswer : Obligations.CycleStepReadsNoAnswer := by
  intro s s' c hrun h
  obtain ⟨-, p, hpc⟩ | hwait := running_or_waiting_of_step h
  · obtain ⟨-, hout, hchannel, htable⟩ := step_sides hrun hpc h
    have hstep := step_withSides_of_running hrun hpc h s.out c fun _ => rfl
    rw [← hout] at hstep
    exact ⟨hchannel, hstep.trans (by rw [← htable]; rfl)⟩
  · exact nomatch hrun.symm.trans hwait

/-- No step writes the table. -/
theorem step_otcTable {s s' : State} (h : step s = .next s') : s'.otcTable = s.otcTable := by
  obtain ⟨-, p, t, -, hexec, rfl⟩ | ⟨-, -, rfl⟩ | ⟨-, ans, rest, -, rfl⟩ := step_cases h
  · obtain ⟨-, -, htable⟩ := exec_sides hexec
    exact (endCheck_otcTable t).trans htable
  · rfl
  · exact inputStep_otcTable ..

/-- Settles O47: both kinds of step do the same with another record in place, with the table that they do not write. -/
theorem outputIsNeverRead : Obligations.OutputIsNeverRead := by
  intro s s' o h
  have htable := step_otcTable h
  obtain ⟨hrun, p, hpc⟩ | hwait := running_or_waiting_of_step h
  · obtain ⟨-, -, hchannel, -⟩ := step_sides hrun hpc h
    have hstep := step_withSides_of_running hrun hpc h o s.channel fun _ => rfl
    exact hstep.trans (by rw [← htable, ← hchannel]; rfl)
  · obtain ⟨hnil, -⟩ := out_of_waiting hwait h
    rw [hnil, List.append_nil]
    exact (step_withSides_of_waiting hwait h o s.otcTable).trans (by rw [← htable]; rfl)

/-- Settles O49: a cycle step that is no OTC, and an input step, do the same with another table in place. -/
theorem onlyOtcReadsItsMap : Obligations.OnlyOtcReadsItsMap := by
  refine fun s s' table h => ⟨step_otcTable h, fun hno => ?_⟩
  obtain ⟨hrun, p, hpc⟩ | hwait := running_or_waiting_of_step h
  · obtain ⟨-, hout, hchannel, -⟩ := step_sides hrun hpc h
    have hstep := step_withSides_of_running hrun hpc h s.out s.channel (table := table)
      fun hotc => absurd hotc (hno p hrun hpc)
    exact hstep.trans (by rw [← hout, ← hchannel]; rfl)
  · obtain ⟨-, hout, -⟩ := waitStepTransitions s s' hwait h
    exact (step_withSides_of_waiting hwait h s.out table).trans (by rw [← hout]; rfl)

/-! ### Self-modifying code -/

/-- Settles O50: the stored word is read back from the cell, which is the one the advance names, so the next step fetches
it; the end-of-memory check does not fire before, since the cell is in memory. -/
theorem storedWordIsFetchedNext : Obligations.StoredWordIsFetchedNext := by
  intro s p a ⟨hrun, hpc, hval⟩ hnext
  have hsucc : p.succ = a.castSucc := Fin.ext hnext.symm
  have hquiet : endCheck ((s.advance p).store a s.acc) = (s.advance p).store a s.acc :=
    endCheck_of_pc_le (by simp [hsucc]; omega)
  have hstep : step s = .next ((s.advance p).store a s.acc) :=
    hquiet ▸ step_running_val 3 a hrun hpc hval (exec_sta a (s.advance p))
  have hread : ((s.advance p).store a s.acc).mem.read a = s.acc := Memory.read_write_same ..
  obtain ⟨u, hexec, hstep'⟩ := exists_exec_step (s := (s.advance p).store a s.acc) hrun hsucc
  rw [hread] at hexec
  exact ⟨_, u, hstep, ⟨hrun, hsucc, congrArg Subtype.val hread⟩, hexec, hstep'⟩

end Sys2Proof.Machine
end
